-- ==== Sys2Proof/Word.lean ====
section
/-! DEFINITION. The widths the spec fixes (00_scope.md R8): bytes, 16-bit words, 12-bit immediates and register indices. -/

namespace Sys2Proof

/-- An 8-bit value: a general register, a timer, a byte of memory (R8, R20). -/
abbrev Byte := BitVec 8

/-- A 16-bit value: an instruction word, PC, I or a stack entry (R8, R20). -/
abbrev Word := BitVec 16

/-- The 12-bit immediate `nnn` (R71). -/
abbrev Addr12 := BitVec 12

/-- The index of a general register, 0..15 (R22, R73). -/
abbrev Reg := Fin 16

/-- VF, the register that is also the flag (R22, R34). -/
abbrev vf : Reg := 15

/-- The keypad, or a snapshot of it: bit k is key k pressed (R33, R37; 60_exceptions.md R236 gives the port 16 bits). -/
abbrev Keys := BitVec 16

/-- The framebuffer grid of R32: 32 rows (top to bottom) of 64 pixels (left to right), each lit (`true`) or unlit. -/
abbrev Frame := Vector (Vector Bool 64) 32

end Sys2Proof
end

