-- ==== Sys2Proof/WellFormed.lean ====
section
/-! DEFINITION. What is well-formed: operands as plain numbers within their fields (30_encoding.md R71 to R73), and
instruction words that some row of the opcode map matches (R76 lists the others). An `Instr` is well-formed by its
types; `assemble` is where unbounded operands enter and where the check refuses them. -/

namespace Sys2Proof

/-- The operands of an instruction as written in its syntax (R79), unbounded, one alternative for each format of R72. -/
inductive Operands where
  /-- format `FIX` -/
  | fix
  /-- format `NNN` -/
  | addr (nnn : Nat)
  /-- format `XNN` -/
  | regImm (x nn : Nat)
  /-- format `XY` -/
  | regReg (x y : Nat)
  /-- format `XYN` -/
  | regRegCount (x y n : Nat)
  /-- format `X` -/
  | reg (x : Nat)
  deriving DecidableEq, Repr

/-- Each operand fits its field (R71, R73): 4 bits for x, y and n, 8 for nn, 12 for nnn. -/
def Operands.wellFormed : Operands → Bool
  | .fix => true
  | .addr nnn => decide (nnn < 4096)
  | .regImm x nn => decide (x < 16) && decide (nn < 256)
  | .regReg x y => decide (x < 16) && decide (y < 16)
  | .regRegCount x y n => decide (x < 16) && decide (y < 16) && decide (n < 16)
  | .reg x => decide (x < 16)

/-- The operands of an instruction, in its format of R72. -/
def Instr.operands : Instr → Operands
  | .cls => .fix
  | .ret => .fix
  | .jp nnn => .addr nnn.toNat
  | .call nnn => .addr nnn.toNat
  | .seImm x nn => .regImm x.val nn.toNat
  | .sneImm x nn => .regImm x.val nn.toNat
  | .seReg x y => .regReg x.val y.val
  | .ldImm x nn => .regImm x.val nn.toNat
  | .addImm x nn => .regImm x.val nn.toNat
  | .ldReg x y => .regReg x.val y.val
  | .orReg x y => .regReg x.val y.val
  | .andReg x y => .regReg x.val y.val
  | .xorReg x y => .regReg x.val y.val
  | .addReg x y => .regReg x.val y.val
  | .sub x y => .regReg x.val y.val
  | .shr x y => .regReg x.val y.val
  | .subn x y => .regReg x.val y.val
  | .shl x y => .regReg x.val y.val
  | .sneReg x y => .regReg x.val y.val
  | .ldI nnn => .addr nnn.toNat
  | .jpV0 nnn => .addr nnn.toNat
  | .rnd x nn => .regImm x.val nn.toNat
  | .drw x y n => .regRegCount x.val y.val n.val
  | .skp x => .reg x.val
  | .sknp x => .reg x.val
  | .ldVxDt x => .reg x.val
  | .ldVxK x => .reg x.val
  | .ldDtVx x => .reg x.val
  | .ldStVx x => .reg x.val
  | .addIVx x => .reg x.val
  | .ldFVx x => .reg x.val
  | .ldBVx x => .reg x.val
  | .ldMemVx x => .reg x.val
  | .ldVxMem x => .reg x.val

/-- The name of an instruction's row in the opcode map (R74). -/
def Instr.mnemonic : Instr → String
  | .cls => "CLS"
  | .ret => "RET"
  | .jp _ => "JP"
  | .call _ => "CALL"
  | .seImm _ _ => "SE_IMM"
  | .sneImm _ _ => "SNE_IMM"
  | .seReg _ _ => "SE_REG"
  | .ldImm _ _ => "LD_IMM"
  | .addImm _ _ => "ADD_IMM"
  | .ldReg _ _ => "LD_REG"
  | .orReg _ _ => "OR"
  | .andReg _ _ => "AND"
  | .xorReg _ _ => "XOR"
  | .addReg _ _ => "ADD_REG"
  | .sub _ _ => "SUB"
  | .shr _ _ => "SHR"
  | .subn _ _ => "SUBN"
  | .shl _ _ => "SHL"
  | .sneReg _ _ => "SNE_REG"
  | .ldI _ => "LD_I"
  | .jpV0 _ => "JP_V0"
  | .rnd _ _ => "RND"
  | .drw _ _ _ => "DRW"
  | .skp _ => "SKP"
  | .sknp _ => "SKNP"
  | .ldVxDt _ => "LD_VX_DT"
  | .ldVxK _ => "LD_VX_K"
  | .ldDtVx _ => "LD_DT_VX"
  | .ldStVx _ => "LD_ST_VX"
  | .addIVx _ => "ADD_I_VX"
  | .ldFVx _ => "LD_F_VX"
  | .ldBVx _ => "LD_B_VX"
  | .ldMemVx _ => "LD_MEM_VX"
  | .ldVxMem _ => "LD_VX_MEM"

/-- A word that some row of the opcode map matches: the complement of the table of R76, group by group. -/
def wellFormedWord (w : Word) : Bool :=
  let nn := (w.extractLsb' 0 8).toNat
  let n := (w.extractLsb' 0 4).toNat
  match (w.extractLsb' 12 4).toNat with
  | 0x0 => w == 0x00E0 || w == 0x00EE
  | 0x5 => n == 0
  | 0x8 => [0x0, 0x1, 0x2, 0x3, 0x4, 0x5, 0x6, 0x7, 0xE].contains n
  | 0x9 => n == 0
  | 0xE => [0x9E, 0xA1].contains nn
  | 0xF => [0x07, 0x0A, 0x15, 0x18, 0x1E, 0x29, 0x33, 0x55, 0x65].contains nn
  | _ => true

end Sys2Proof
end

