-- ==== Sys2Proof/Decode.lean ====
section
/-! DEFINITION. The decoder (30_encoding.md R71, R74, R75), the encoder (R80), the opcode map as rows of match and mask
(R74), and the assembler of R79. -/

namespace Sys2Proof

/-- `op = w[15:12]` (R71). -/
def opOf (w : Word) : Nat := (w.extractLsb' 12 4).toNat

/-- `x = w[11:8]` (R71). -/
def xOf (w : Word) : Reg := (w.extractLsb' 8 4).toFin

/-- `y = w[7:4]` (R71). -/
def yOf (w : Word) : Reg := (w.extractLsb' 4 4).toFin

/-- `n = w[3:0]` (R71). -/
def nOf (w : Word) : Fin 16 := (w.extractLsb' 0 4).toFin

/-- `nn = w[7:0]` (R71). -/
def nnOf (w : Word) : Byte := w.extractLsb' 0 8

/-- `nnn = w[11:0]` (R71). -/
def nnnOf (w : Word) : Addr12 := w.extractLsb' 0 12

/-- What a word decodes to: one of the 34 instructions, or the explicit unknown variant carrying the raw word (R75). -/
inductive Decoded where
  | known (i : Instr)
  | unknown (w : Word)
  deriving DecidableEq, Repr

/-- The 0 group: the two `FIX` words, compared whole (R74). -/
def decode0 (w : Word) : Decoded :=
  if w = 0x00E0 then .known .cls
  else if w = 0x00EE then .known .ret
  else .unknown w

/-- The 8 group, by the sub-opcode n (R72, R74). -/
def decode8 (w : Word) : Decoded :=
  match (nOf w).val with
  | 0x0 => .known (.ldReg (xOf w) (yOf w))
  | 0x1 => .known (.orReg (xOf w) (yOf w))
  | 0x2 => .known (.andReg (xOf w) (yOf w))
  | 0x3 => .known (.xorReg (xOf w) (yOf w))
  | 0x4 => .known (.addReg (xOf w) (yOf w))
  | 0x5 => .known (.sub (xOf w) (yOf w))
  | 0x6 => .known (.shr (xOf w) (yOf w))
  | 0x7 => .known (.subn (xOf w) (yOf w))
  | 0xE => .known (.shl (xOf w) (yOf w))
  | _ => .unknown w

/-- The E group, by the sub-opcode nn (R72, R74). -/
def decodeE (w : Word) : Decoded :=
  match (nnOf w).toNat with
  | 0x9E => .known (.skp (xOf w))
  | 0xA1 => .known (.sknp (xOf w))
  | _ => .unknown w

/-- The F group, by the sub-opcode nn (R72, R74). -/
def decodeF (w : Word) : Decoded :=
  match (nnOf w).toNat with
  | 0x07 => .known (.ldVxDt (xOf w))
  | 0x0A => .known (.ldVxK (xOf w))
  | 0x15 => .known (.ldDtVx (xOf w))
  | 0x18 => .known (.ldStVx (xOf w))
  | 0x1E => .known (.addIVx (xOf w))
  | 0x29 => .known (.ldFVx (xOf w))
  | 0x33 => .known (.ldBVx (xOf w))
  | 0x55 => .known (.ldMemVx (xOf w))
  | 0x65 => .known (.ldVxMem (xOf w))
  | _ => .unknown w

/-- The decoder: total and pure, it reads only the word (R75, 40_execution_cycle.md R94). -/
def decode (w : Word) : Decoded :=
  match opOf w with
  | 0x0 => decode0 w
  | 0x1 => .known (.jp (nnnOf w))
  | 0x2 => .known (.call (nnnOf w))
  | 0x3 => .known (.seImm (xOf w) (nnOf w))
  | 0x4 => .known (.sneImm (xOf w) (nnOf w))
  | 0x5 => if (nOf w).val = 0 then .known (.seReg (xOf w) (yOf w)) else .unknown w
  | 0x6 => .known (.ldImm (xOf w) (nnOf w))
  | 0x7 => .known (.addImm (xOf w) (nnOf w))
  | 0x8 => decode8 w
  | 0x9 => if (nOf w).val = 0 then .known (.sneReg (xOf w) (yOf w)) else .unknown w
  | 0xA => .known (.ldI (nnnOf w))
  | 0xB => .known (.jpV0 (nnnOf w))
  | 0xC => .known (.rnd (xOf w) (nnOf w))
  | 0xD => .known (.drw (xOf w) (yOf w) (nOf w))
  | 0xE => decodeE w
  | 0xF => decodeF w
  | _ => .unknown w

/-- Why bytes give no instruction. -/
inductive DecodeReject where
  /-- fewer than the two bytes of an instruction word (R70) -/
  | truncated
  /-- a whole word that no row of the opcode map matches (R76) -/
  | unknownWord (w : Word)
  deriving DecidableEq, Repr

/-- Decoding from bytes, high byte first (20_memory.md R54): the instruction and the bytes after it, or the reason. -/
def decodeBytes : List Byte → Except DecodeReject (Instr × List Byte)
  | hi :: lo :: rest =>
    match decode (hi ++ lo) with
    | .known i => .ok (i, rest)
    | .unknown w => .error (.unknownWord w)
  | _ => .error .truncated

/-- The two bytes of a word in memory order, high byte first (20_memory.md R54). -/
def wordBytes (w : Word) : List Byte := [w.extractLsb' 8 8, w.extractLsb' 0 8]

/-- The host's question: the instruction the decoder reads from an opcode-table word, laid out as the hardware stores it. -/
def decodeTableWord (nbits w : Nat) : Option Instr :=
  match decodeBytes (wordBytes (BitVec.ofNat 16 (w % 2 ^ nbits))) with
  | .ok (i, _) => some i
  | .error _ => none

/-- A 4-bit register or count field. -/
def nib (k : Fin 16) : BitVec 4 := BitVec.ofFin k

/-- Format `NNN`: op, nnn (R72). -/
def encNNN (op : BitVec 4) (nnn : Addr12) : Word := op ++ nnn

/-- Format `XNN`: op, x, nn (R72). -/
def encXNN (op : BitVec 4) (x : Reg) (nn : Byte) : Word := op ++ nib x ++ nn

/-- Formats `XY` and `XYN`: op, x, y, sub-opcode or n (R72). -/
def encXYN (op : BitVec 4) (x y : Reg) (n : BitVec 4) : Word := op ++ nib x ++ nib y ++ n

/-- Format `X`: op, x, sub-opcode (R72). -/
def encX (op : BitVec 4) (x : Reg) (sub : Byte) : Word := op ++ nib x ++ sub

/-- The word of an instruction (R80), from the bit patterns of the opcode map (R72, R74). -/
def encode : Instr → Word
  | .cls => 0x00E0
  | .ret => 0x00EE
  | .jp nnn => encNNN 0x1 nnn
  | .call nnn => encNNN 0x2 nnn
  | .seImm x nn => encXNN 0x3 x nn
  | .sneImm x nn => encXNN 0x4 x nn
  | .seReg x y => encXYN 0x5 x y 0x0
  | .ldImm x nn => encXNN 0x6 x nn
  | .addImm x nn => encXNN 0x7 x nn
  | .ldReg x y => encXYN 0x8 x y 0x0
  | .orReg x y => encXYN 0x8 x y 0x1
  | .andReg x y => encXYN 0x8 x y 0x2
  | .xorReg x y => encXYN 0x8 x y 0x3
  | .addReg x y => encXYN 0x8 x y 0x4
  | .sub x y => encXYN 0x8 x y 0x5
  | .shr x y => encXYN 0x8 x y 0x6
  | .subn x y => encXYN 0x8 x y 0x7
  | .shl x y => encXYN 0x8 x y 0xE
  | .sneReg x y => encXYN 0x9 x y 0x0
  | .ldI nnn => encNNN 0xA nnn
  | .jpV0 nnn => encNNN 0xB nnn
  | .rnd x nn => encXNN 0xC x nn
  | .drw x y n => encXYN 0xD x y (nib n)
  | .skp x => encX 0xE x 0x9E
  | .sknp x => encX 0xE x 0xA1
  | .ldVxDt x => encX 0xF x 0x07
  | .ldVxK x => encX 0xF x 0x0A
  | .ldDtVx x => encX 0xF x 0x15
  | .ldStVx x => encX 0xF x 0x18
  | .addIVx x => encX 0xF x 0x1E
  | .ldFVx x => encX 0xF x 0x29
  | .ldBVx x => encX 0xF x 0x33
  | .ldMemVx x => encX 0xF x 0x55
  | .ldVxMem x => encX 0xF x 0x65

/-- A row of the opcode map of R74. -/
structure OpcodeRow where
  mnemonic : String
  value : Word
  mask : Word
  deriving DecidableEq, Repr

/-- A word decodes to the row whose `(w & mask) = match` (R74). -/
def OpcodeRow.covers (r : OpcodeRow) (w : Word) : Bool := w &&& r.mask == r.value

/-- The rows of the opcode map with op 0 to 7 (R74). -/
def opcodeRowsLow : List OpcodeRow :=
  [⟨"CLS", 0x00E0, 0xFFFF⟩, ⟨"RET", 0x00EE, 0xFFFF⟩, ⟨"JP", 0x1000, 0xF000⟩, ⟨"CALL", 0x2000, 0xF000⟩,
   ⟨"SE_IMM", 0x3000, 0xF000⟩, ⟨"SNE_IMM", 0x4000, 0xF000⟩, ⟨"SE_REG", 0x5000, 0xF00F⟩,
   ⟨"LD_IMM", 0x6000, 0xF000⟩, ⟨"ADD_IMM", 0x7000, 0xF000⟩]

/-- The rows of the opcode map with op 8 (R74). -/
def opcodeRowsAlu : List OpcodeRow :=
  [⟨"LD_REG", 0x8000, 0xF00F⟩, ⟨"OR", 0x8001, 0xF00F⟩, ⟨"AND", 0x8002, 0xF00F⟩, ⟨"XOR", 0x8003, 0xF00F⟩,
   ⟨"ADD_REG", 0x8004, 0xF00F⟩, ⟨"SUB", 0x8005, 0xF00F⟩, ⟨"SHR", 0x8006, 0xF00F⟩, ⟨"SUBN", 0x8007, 0xF00F⟩,
   ⟨"SHL", 0x800E, 0xF00F⟩]

/-- The rows of the opcode map with op 9 to F (R74). -/
def opcodeRowsHigh : List OpcodeRow :=
  [⟨"SNE_REG", 0x9000, 0xF00F⟩, ⟨"LD_I", 0xA000, 0xF000⟩, ⟨"JP_V0", 0xB000, 0xF000⟩, ⟨"RND", 0xC000, 0xF000⟩,
   ⟨"DRW", 0xD000, 0xF000⟩, ⟨"SKP", 0xE09E, 0xF0FF⟩, ⟨"SKNP", 0xE0A1, 0xF0FF⟩, ⟨"LD_VX_DT", 0xF007, 0xF0FF⟩,
   ⟨"LD_VX_K", 0xF00A, 0xF0FF⟩, ⟨"LD_DT_VX", 0xF015, 0xF0FF⟩, ⟨"LD_ST_VX", 0xF018, 0xF0FF⟩,
   ⟨"ADD_I_VX", 0xF01E, 0xF0FF⟩, ⟨"LD_F_VX", 0xF029, 0xF0FF⟩, ⟨"LD_B_VX", 0xF033, 0xF0FF⟩,
   ⟨"LD_MEM_VX", 0xF055, 0xF0FF⟩, ⟨"LD_VX_MEM", 0xF065, 0xF0FF⟩]

/-- The opcode map of R74. -/
def opcodeMap : List OpcodeRow := opcodeRowsLow ++ opcodeRowsAlu ++ opcodeRowsHigh

/-- R80: the operand fields of a format in their places, `(x << 8) | (y << 4) | n`, `(x << 8) | nn`, `nnn` or `x << 8`. -/
def Operands.fields : Operands → Word
  | .fix => 0
  | .addr nnn => BitVec.ofNat 16 nnn
  | .regImm x nn => (BitVec.ofNat 16 x <<< 8) ||| BitVec.ofNat 16 nn
  | .regReg x y => (BitVec.ofNat 16 x <<< 8) ||| (BitVec.ofNat 16 y <<< 4)
  | .regRegCount x y n => (BitVec.ofNat 16 x <<< 8) ||| (BitVec.ofNat 16 y <<< 4) ||| BitVec.ofNat 16 n
  | .reg x => BitVec.ofNat 16 x <<< 8

/-- The assembler of R79 and R80: an instruction from the name of its row and its operands, refused (`none`) where an
operand does not fit its field, or where the name is no row's or takes other operands. -/
def assemble (mnemonic : String) (ops : Operands) : Option Instr :=
  if ops.wellFormed then
    match opcodeMap.find? (fun r => r.mnemonic == mnemonic) with
    | none => none
    | some r =>
      match decode (r.value ||| ops.fields) with
      | .unknown _ => none
      | .known i => if i.mnemonic = mnemonic ∧ i.operands = ops then some i else none
  else none

/-- A digit of the customary syntax (R79). -/
def hexDigit (k : Nat) : String := (["0", "1", "2", "3", "4", "5", "6", "7", "8", "9", "A", "B", "C", "D", "E", "F"])[k % 16]!

/-- A general register's name (R79). -/
def regName (x : Reg) : String := "V" ++ hexDigit x.val

/-- An 8-bit immediate, hex with a `0x` prefix (R79). -/
def immText (nn : Byte) : String := "0x" ++ hexDigit (nn.toNat / 16) ++ hexDigit nn.toNat

/-- A 12-bit address, hex (R79). DEDUCED: three digits also where the address is below 0x100 (log entry 19). -/
def addrText (nnn : Addr12) : String :=
  hexDigit (nnn.toNat / 256) ++ hexDigit (nnn.toNat / 16) ++ hexDigit nnn.toNat

/-- The optional second operand of SHR and SHL: `SHR Vx` assembles with y = 0 (R79). -/
def optReg (y : Reg) : String := if y = 0 then "" else ", " ++ regName y

/-- The customary assembler text of an instruction (R79). DESIGN CHOICE: the count n of DRW, which R79 does not say how to
write, is one bare hex digit, A to F for 10 to 15 (log entry 19). -/
def Instr.asmText : Instr → String
  | .cls => "CLS"
  | .ret => "RET"
  | .jp nnn => "JP " ++ addrText nnn
  | .call nnn => "CALL " ++ addrText nnn
  | .seImm x nn => "SE " ++ regName x ++ ", " ++ immText nn
  | .sneImm x nn => "SNE " ++ regName x ++ ", " ++ immText nn
  | .seReg x y => "SE " ++ regName x ++ ", " ++ regName y
  | .ldImm x nn => "LD " ++ regName x ++ ", " ++ immText nn
  | .addImm x nn => "ADD " ++ regName x ++ ", " ++ immText nn
  | .ldReg x y => "LD " ++ regName x ++ ", " ++ regName y
  | .orReg x y => "OR " ++ regName x ++ ", " ++ regName y
  | .andReg x y => "AND " ++ regName x ++ ", " ++ regName y
  | .xorReg x y => "XOR " ++ regName x ++ ", " ++ regName y
  | .addReg x y => "ADD " ++ regName x ++ ", " ++ regName y
  | .sub x y => "SUB " ++ regName x ++ ", " ++ regName y
  | .shr x y => "SHR " ++ regName x ++ optReg y
  | .subn x y => "SUBN " ++ regName x ++ ", " ++ regName y
  | .shl x y => "SHL " ++ regName x ++ optReg y
  | .sneReg x y => "SNE " ++ regName x ++ ", " ++ regName y
  | .ldI nnn => "LD I, " ++ addrText nnn
  | .jpV0 nnn => "JP V0, " ++ addrText nnn
  | .rnd x nn => "RND " ++ regName x ++ ", " ++ immText nn
  | .drw x y n => "DRW " ++ regName x ++ ", " ++ regName y ++ ", " ++ hexDigit n.val
  | .skp x => "SKP " ++ regName x
  | .sknp x => "SKNP " ++ regName x
  | .ldVxDt x => "LD " ++ regName x ++ ", DT"
  | .ldVxK x => "LD " ++ regName x ++ ", K"
  | .ldDtVx x => "LD DT, " ++ regName x
  | .ldStVx x => "LD ST, " ++ regName x
  | .addIVx x => "ADD I, " ++ regName x
  | .ldFVx x => "LD F, " ++ regName x
  | .ldBVx x => "LD B, " ++ regName x
  | .ldMemVx x => "LD [I], " ++ regName x
  | .ldVxMem x => "LD " ++ regName x ++ ", [I]"

/-- A line of a program in the customary syntax: an instruction, or the data directive `DW`, which places one word (R79). -/
inductive AsmLine where
  | instr (i : Instr)
  | dw (w : Word)
  deriving DecidableEq, Repr

/-- The word a line places (R79, R80). -/
def AsmLine.word : AsmLine → Word
  | .instr i => encode i
  | .dw w => w

/-- The text of a line (R79). -/
def AsmLine.text : AsmLine → String
  | .instr i => i.asmText
  | .dw w => "DW 0x" ++ hexDigit (w.toNat / 4096) ++ addrText (w.extractLsb' 0 12)

/-- The bytes of a program, for the load operation (70_reset_and_hazards.md R251), each word high byte first (R70). -/
def programBytes (lines : List AsmLine) : List Byte := lines.flatMap (fun l => wordBytes l.word)

end Sys2Proof
end

