-- ==== Sys2Proof/Config.lean ====
section
/-! DEFINITION. What an implementation fixes: the named parameters of 00_scope.md R9 that the core reads, as plain
data, and the one free value of the spec, the random byte of Cxnn. The default values stand in Machine/Defaults.lean. -/

namespace Sys2Proof

/-- SHIFT_SOURCE (R9, decision D11): the register whose value 8xy6 and 8xyE shift. -/
inductive ShiftSource where
  | vx
  | vy
  deriving DecidableEq, Repr

/-- VF_ORDER (R9, decision D10): which of the result and the flag is written last by 8xy4 to 8xyE (R140). -/
inductive VfOrder where
  | flagLast
  | resultLast
  deriving DecidableEq, Repr

/-- INDEX_ADD_WRAP (R9, decision D8): how Fx1E reduces its sum (R172). -/
inductive IndexAddWrap where
  | mod65536
  | mod4096
  deriving DecidableEq, Repr

/-- KEY_INDEX (R9, decision D12): what Ex9E and ExA1 do with a key number above 15 (R190). -/
inductive KeyIndexPolicy where
  | fault
  | lowNibble
  deriving DecidableEq, Repr

/-- UNKNOWN_POLICY (R9, decision D14): what an unknown word does (R99). -/
inductive UnknownPolicy where
  | continueOn
  | halt
  deriving DecidableEq, Repr

/-- The values RESET_VALUES = Draw fixes at construction (R39): "arbitrary values chosen once at construction". -/
structure DrawnValues where
  v : Vector Byte 16
  i : Word
  dt : Byte
  st : Byte
  stack : Vector Word 16
  deriving DecidableEq, Repr

/-- RESET_VALUES (R9, decision D2): V0-VF, I, DT, ST and the stack entries are 0, or the values drawn at construction. -/
inductive ResetValues where
  | zero
  | draw (d : DrawnValues)
  deriving DecidableEq, Repr

/-- The parameters of R9 the core reads. CPU_HZ belongs to the scheduler (60_exceptions.md R229, R230) and RNG is
`Config.freeByte`. A machine's configuration never changes (log entry 1). -/
structure Config where
  shiftSource : ShiftSource
  vfOrder : VfOrder
  indexAddWrap : IndexAddWrap
  keyIndex : KeyIndexPolicy
  unknownPolicy : UnknownPolicy
  /-- FONT: the 80 bytes at 0x050..0x09F after construction and reset (R31). -/
  font : Vector Byte 80
  resetValues : ResetValues
  deriving DecidableEq, Repr

/-- RNG (R9, 43_alu.md R152, decision D17): the byte of the n-th draw, "a free byte under no law". It has no body: no
proof can see its value (log entry 4). -/
opaque Config.freeByte : Nat → Byte

end Sys2Proof
end

