-- ==== Sys2Proof/Machine/State.lean ====
section
/-! DEFINITION. The state of the core (10_state.md R20) beside the model's own fields, the reasons a tick or a load
fails (60_exceptions.md R211), and the state after construction and reset (10_state.md R39). -/

namespace Sys2Proof.Machine

/-- The fault kinds of 60_exceptions.md R211. The kinds raised by an instruction tick are recorded in mode HALTED,
which is a NEXT state (R213): no step of this machine ends in `Host.Outcome.fault` (log entry 8; safe: the machine's
own stop is HALTED, in which ticks change nothing). -/
inductive Fault where
  /-- code 1, raised by an unknown word under UNKNOWN_POLICY = Halt (40_execution_cycle.md R99); the record holds the word -/
  | unknownInstruction
  /-- code 2, raised by 2nnn with SP = 16 (42_control.md R123) -/
  | stackOverflow
  /-- code 3, raised by 00EE with SP = 0 (42_control.md R121) -/
  | stackUnderflow
  /-- code 4, raised by the fetch, Dxyn, Fx33, Fx55 and Fx65; `addr` is the lowest invalid address (20_memory.md R52) -/
  | addressOutOfRange (addr : Nat)
  /-- code 5, raised by Ex9E and ExA1 with Vx > 15 under KEY_INDEX = Fault (45_keypad_timers.md R190); `v` is Vx -/
  | keyIndexOutOfRange (v : Byte)
  /-- code 6, the result of a load of more than 3584 bytes (70_reset_and_hazards.md R252); never in a HALTED record -/
  | programTooLarge (length : Nat)
  deriving DecidableEq, Repr

/-- The reasons a step would be refused: none is ever used, since every instruction has its meaning. -/
inductive Refusal where
  /-- raised by an arm of `exec` whose instruction has no meaning yet; no arm is so at present; safe -/
  | notModelled (mnemonic : String)
  deriving DecidableEq, Repr

/-- The fault record of R213: the kind with its info, the address A of the faulting instruction, and its word (none for
a fetch fault). The code is `Fault.code` of the kind. -/
structure FaultRecord where
  kind : Fault
  addr : Word
  word : Option Word
  deriving DecidableEq, Repr

/-- The mode of 10_state.md R37. -/
inductive Mode where
  | running
  | awaitingKey (x : Reg) (baseline : Keys)
  | halted (f : FaultRecord)
  deriving DecidableEq, Repr

/-- A record of the report port: UnknownInstruction(w, A) (60_exceptions.md R241). -/
structure Report where
  word : Word
  addr : Word
  deriving DecidableEq, Repr

/-- What the load operation returns to the host (60_exceptions.md R236 "program load with result", log entry 7). -/
inductive LoadResult where
  | loaded
  | rejected (f : Fault)
  deriving DecidableEq, Repr

/-- One atomic transition of the machine: a strobe or an operation of the port list of 60_exceptions.md R236 and R237. -/
inductive Event where
  /-- `instr_tick`: one instruction tick (40_execution_cycle.md R90) -/
  | instrTick
  /-- `timer_tick`: one timer tick (60_exceptions.md R225) -/
  | timerTick
  /-- `key`: the host writes the keypad (60_exceptions.md R239) -/
  | setKeys (keys : Keys)
  /-- `load`: the host loads a program (70_reset_and_hazards.md R251) -/
  | load (bytes : List Byte)
  /-- `reset`: the host resets the machine (70_reset_and_hazards.md R250) -/
  | reset
  deriving DecidableEq, Repr

/-- The core's state (10_state.md R20), then the model's own fields. -/
structure State where
  /-- V0..VF (R22) -/
  v : Vector Byte 16
  /-- the index register I (R27) -/
  i : Word
  /-- the program counter (R24) -/
  pc : Word
  /-- the call stack (R28) -/
  stack : Vector Word 16
  /-- the stack pointer, 0..16 (R29) -/
  sp : Fin 17
  /-- the delay timer (R30) -/
  dt : Byte
  /-- the sound timer (R30) -/
  st : Byte
  /-- memory (R31): the bytes that differ from their construction values, addresses rising (log entry 13) -/
  mem : List Host.Cell
  /-- the framebuffer (R32) -/
  fb : Frame
  /-- the keypad (R33) -/
  keys : Keys
  /-- the mode (R37) -/
  mode : Mode
  /-- the model's own: the configuration (00_scope.md R9), which nothing changes (log entry 1) -/
  cfg : Config
  /-- the model's own: how many random bytes have been drawn (log entry 4) -/
  draws : Nat
  /-- the model's own: the records emitted on the report port, oldest first (60_exceptions.md R241, log entry 6) -/
  reports : List Report
  /-- the model's own: the results the load operation has returned, oldest first (log entry 7) -/
  loadResults : List LoadResult
  /-- the model's own: the transitions the host and the timer have still to issue, next first (log entry 5) -/
  schedule : List Event
  deriving DecidableEq, Repr

/-- The values RESET_VALUES gives V0-VF, I, DT, ST and the stack (R39, log entry 2). -/
def resetValuesOf : ResetValues → DrawnValues
  | .zero => ⟨Vector.replicate 16 0, 0, 0, 0, Vector.replicate 16 0⟩
  | .draw d => d

/-- The state at construction under a configuration: the table of R39. -/
def State.construct (cfg : Config) : State where
  v := (resetValuesOf cfg.resetValues).v
  i := (resetValuesOf cfg.resetValues).i
  pc := 0x200
  stack := (resetValuesOf cfg.resetValues).stack
  sp := 0
  dt := (resetValuesOf cfg.resetValues).dt
  st := (resetValuesOf cfg.resetValues).st
  mem := []
  fb := Vector.replicate 32 (Vector.replicate 64 false)
  keys := 0
  mode := .running
  cfg := cfg
  draws := 0
  reports := []
  loadResults := []
  schedule := []

/-- The machine right after reset, with the default configuration of 00_scope.md R9. -/
def State.reset : State := State.construct Config.default

end Sys2Proof.Machine
end

