-- ==== Sys2Proof/Machine/Memory.lean ====
section
/-! DEFINITION. Memory (20_memory.md): what an unlisted address reads as, reading and writing one byte in the canonical
form of the cell list, and the checked accesses of R52. -/

namespace Sys2Proof.Machine

/-- What an unlisted address reads as: its construction value (10_state.md R31, R39), the FONT byte at 0x050..0x09F and 0
elsewhere (log entry 13). -/
def initByte (font : Vector Byte 80) (a : Nat) : Byte :=
  if h : 0x050 ≤ a ∧ a < 0x0A0 then font[a - 0x050] else 0

/-- The byte at an address: the listed one, or the construction value. -/
def Memory.read (font : Vector Byte 80) : List Host.Cell → Nat → Byte
  | [], a => initByte font a
  | (k, b) :: rest, a => if k = a then b else Memory.read font rest a

/-- The cells without those of one address. -/
def Memory.erase : List Host.Cell → Nat → List Host.Cell
  | [], _ => []
  | (k, b) :: rest, a => if k = a then Memory.erase rest a else (k, b) :: Memory.erase rest a

/-- The cells with one more, before the first cell of a higher address. -/
def Memory.insert : List Host.Cell → Nat → Byte → List Host.Cell
  | [], a, v => [(a, v)]
  | (k, b) :: rest, a, v => if a < k then (a, v) :: (k, b) :: rest else (k, b) :: Memory.insert rest a v

/-- Writing one byte: an address that reads as its construction value is not listed. -/
def Memory.write (font : Vector Byte 80) (m : List Host.Cell) (a : Nat) (v : Byte) : List Host.Cell :=
  if v = initByte font a then Memory.erase m a else Memory.insert (Memory.erase m a) a v

/-- The canonical form: valid addresses (R50), strictly rising, none listed with its construction value. -/
def Memory.wf (font : Vector Byte 80) : List Host.Cell → Bool
  | [] => true
  | (k, b) :: rest =>
    decide (k < 0x1000) && (b != initByte font k) && rest.all (fun c => decide (k < c.1)) && Memory.wf font rest

/-- The state's byte at an address. -/
def State.loadByte (s : State) (a : Nat) : Byte := Memory.read s.cfg.font s.mem a

/-- The word in two consecutive bytes, high byte first (R54). -/
def State.wordAt (s : State) (a : Nat) : Word := s.loadByte a ++ s.loadByte (a + 1)

/-- The state with one byte of memory written. -/
def State.storeByte (s : State) (a : Nat) (b : Byte) : State := { s with mem := Memory.write s.cfg.font s.mem a b }

/-- The state with bytes written at rising addresses, in order (R56, R61). -/
def State.storeBytes : State → Nat → List Byte → State
  | s, _, [] => s
  | s, a, b :: bs => State.storeBytes (s.storeByte a b) (a + 1) bs

/-- The n bytes from an address on. -/
def State.loadBytes (s : State) (a n : Nat) : List Byte := (List.range n).map (fun k => s.loadByte (a + k))

/-- R52: the lowest invalid address of the list `base, .., base + n - 1`, if it has one. The addresses are unbounded
naturals (R53). -/
def firstInvalid (base n : Nat) : Option Nat :=
  if n = 0 then none else if base + (n - 1) ≤ 0xFFF then none else some (max base 0x1000)

/-- `MemRead(addr, n)` (00_scope.md R14): the bytes, first the one of the lowest address, or AddressOutOfRange. -/
def State.memRead (s : State) (base n : Nat) : Except Fault (List Byte) :=
  match firstInvalid base n with
  | some a => .error (.addressOutOfRange a)
  | none => .ok (s.loadBytes base n)

/-- `MemWrite(addr, n, v)` (00_scope.md R14), the check before the first write (R52). -/
def State.memWrite (s : State) (base : Nat) (bs : List Byte) : Except Fault State :=
  match firstInvalid base bs.length with
  | some a => .error (.addressOutOfRange a)
  | none => .ok (s.storeBytes base bs)

end Sys2Proof.Machine
end

