-- ==== Sys2Proof/Machine/Ops.lean ====
section
/-! DEFINITION. The shared operations over registers, PC, the call stack and the framebuffer, and taking a fault
(60_exceptions.md R213) with the frame every instruction runs in (40_execution_cycle.md R90, R93). -/

namespace Sys2Proof.Machine

/-- The outcome of a step of this machine. -/
abbrev Outcome := Host.Outcome State Fault Refusal

/-- `V[x]` (10_state.md R22). -/
def State.readV (s : State) (x : Reg) : Byte := s.v[x.val]

/-- `V[x] <- b` (10_state.md R22). No register is hardwired. -/
def State.writeV (s : State) (x : Reg) (b : Byte) : State := { s with v := s.v.set x.val b }

/-- `I <- w` (10_state.md R27). -/
def State.setI (s : State) (w : Word) : State := { s with i := w }

/-- `DT <- b` (10_state.md R30). -/
def State.setDt (s : State) (b : Byte) : State := { s with dt := b }

/-- `ST <- b` (10_state.md R30). -/
def State.setSt (s : State) (b : Byte) : State := { s with st := b }

/-- `mode <- m` (00_scope.md R14). -/
def State.setMode (s : State) (m : Mode) : State := { s with mode := m }

/-- The value a write of PC stores: modulo 0x1000 (10_state.md R24). -/
def pcValue (v : Nat) : Word := BitVec.ofNat 16 (v % 0x1000)

/-- `PC <- v mod 0x1000` (10_state.md R24): every write of PC goes through here. -/
def State.setPc (s : State) (v : Nat) : State := { s with pc := pcValue v }

/-- The fetch advance (40_execution_cycle.md R93). -/
def State.advance (s : State) : State := s.setPc (s.pc.toNat + 2)

/-- The skip (42_control.md R120): 2 more on top of the fetch advance. -/
def State.skipIf (s : State) (c : Bool) : State := if c then s.setPc (s.pc.toNat + 2) else s

/-- The call stack and SP written together (10_state.md R28, R29). -/
def State.setStack (s : State) (stk : Vector Word 16) (k : Fin 17) : State := { s with stack := stk, sp := k }

/-- `stack[SP] <- w; SP <- SP + 1` (42_control.md R123), refused when SP = 16. -/
def State.push (s : State) (w : Word) : Except Fault State :=
  if h : s.sp.val < 16 then .ok (s.setStack (s.stack.set s.sp.val w) ⟨s.sp.val + 1, by omega⟩)
  else .error .stackOverflow

/-- `SP <- SP - 1`, with the popped `stack[SP]` (42_control.md R121), refused when SP = 0. The entry keeps its value. -/
def State.pop (s : State) : Except Fault (Word × State) :=
  if h : 0 < s.sp.val then
    .ok (s.stack[s.sp.val - 1]'(by omega), s.setStack s.stack ⟨s.sp.val - 1, by omega⟩)
  else .error .stackUnderflow

/-- `FB[px, py]` (10_state.md R32). -/
def Frame.pixel (fb : Frame) (px : Fin 64) (py : Fin 32) : Bool := (fb[py.val])[px.val]

/-- `FB[px, py] <- b` (10_state.md R32). -/
def Frame.setPixel (fb : Frame) (px : Fin 64) (py : Fin 32) (b : Bool) : Frame :=
  fb.set py.val ((fb[py.val]).set px.val b)

/-- All pixels unlit (10_state.md R32). -/
def Frame.clear : Frame := Vector.replicate 32 (Vector.replicate 64 false)

/-- `FB` written whole. -/
def State.setFb (s : State) (fb : Frame) : State := { s with fb := fb }

/-- `Key[k]` (10_state.md R33): the core only reads the keypad. -/
def State.keyPressed (s : State) (k : Fin 16) : Bool := s.keys.getLsbD k.val

/-- `Rand8()` (00_scope.md R14): a fresh draw, with the state in which it has been made (log entry 4). -/
def State.draw (s : State) : Byte × State := (Config.freeByte s.draws, { s with draws := s.draws + 1 })

/-- `report UnknownInstruction(w, A)` (60_exceptions.md R241): appended to the stream. -/
def State.report (s : State) (w a : Word) : State := { s with reports := s.reports ++ [⟨w, a⟩] }

/-- The numeric code of a fault kind (60_exceptions.md R211). -/
def Fault.code : Fault → Nat
  | .unknownInstruction => 1
  | .stackOverflow => 2
  | .stackUnderflow => 3
  | .addressOutOfRange _ => 4
  | .keyIndexOutOfRange _ => 5
  | .programTooLarge _ => 6

/-- TAKING A FAULT (60_exceptions.md R213): the state at the start of the tick, so PC = A and no write of the tick
stands, with mode HALTED and the record of the kind, A and the word. -/
def State.takeFault (s : State) (f : Fault) (w : Option Word) : State :=
  s.setMode (.halted { kind := f, addr := s.pc, word := w })

/-- The frame of an instruction (40_execution_cycle.md R90): `s` is the state at the start of the tick, so `s.pc` is A
(log entry 9). PC advances before execution (R93); if the body faults, the tick's effect is R213's alone. -/
def perform (i : Instr) (body : State → Except Fault State) (s : State) : Outcome :=
  match body s.advance with
  | .ok t => .next t
  | .error f => .next (s.takeFault f (some (encode i)))

end Sys2Proof.Machine
end

