-- ==== Sys2Proof/Machine/Flags.lean ====
section
/-! DEFINITION. The flag values of 10_state.md R34 and the write of result and flag (43_alu.md R140). -/

namespace Sys2Proof.Machine

/-- `bool(c)` as a byte: 1 or 0 (00_scope.md R11). -/
def flagByte (c : Bool) : Byte := if c then 1 else 0

/-- Carry of 8xy4: the exact sum exceeds 0xFF (43_alu.md R147). -/
def carry (a b : Byte) : Bool := decide (255 < a.toNat + b.toNat)

/-- No borrow of `a - b` (43_alu.md R148, R150). -/
def noBorrow (a b : Byte) : Bool := decide (b.toNat ≤ a.toNat)

/-- The bit 8xy6 shifts out (43_alu.md R149). -/
def shiftedOutRight (a : Byte) : Bool := a.getLsbD 0

/-- The bit 8xyE shifts out (43_alu.md R151). -/
def shiftedOutLeft (a : Byte) : Bool := a.getLsbD 7

/-- `(a + b) mod 256` (43_alu.md R142, R147). -/
def addBytes (a b : Byte) : Byte := BitVec.ofNat 8 ((a.toNat + b.toNat) % 256)

/-- `(a - b) mod 256` (43_alu.md R148, R150; 00_scope.md R11: the non-negative remainder). -/
def subBytes (a b : Byte) : Byte := BitVec.ofInt 8 (((a.toNat : Int) - (b.toNat : Int)) % 256)

/-- `a >> 1` (43_alu.md R149). -/
def shiftRight (a : Byte) : Byte := BitVec.ofNat 8 (a.toNat / 2)

/-- `(a << 1) mod 256` (43_alu.md R151). -/
def shiftLeft (a : Byte) : Byte := BitVec.ofNat 8 (a.toNat * 2 % 256)

/-- `write_rf(r, f)` (43_alu.md R140): the result into Vx and the flag into VF, in the order of VF_ORDER. -/
def State.writeResultFlag (s : State) (x : Reg) (r : Byte) (f : Bool) : State :=
  match s.cfg.vfOrder with
  | .flagLast => (s.writeV x r).writeV vf (flagByte f)
  | .resultLast => (s.writeV vf (flagByte f)).writeV x r

end Sys2Proof.Machine
end

