-- ==== Sys2Proof/Machine/Operands.lean ====
section
/-! DEFINITION. The operand forms beyond a plain register or immediate: the shifted operand, the key number, the
addresses through I, the decimal digits and the sprite. -/

namespace Sys2Proof.Machine

/-- The value 8xy6 and 8xyE shift (43_alu.md R149, R151), by SHIFT_SOURCE. -/
def State.shiftOperand (s : State) (x y : Reg) : Byte :=
  match s.cfg.shiftSource with
  | .vx => s.readV x
  | .vy => s.readV y

/-- `key_index(v)` (45_keypad_timers.md R190), by KEY_INDEX. -/
def State.keyIndex (s : State) (v : Byte) : Except Fault (Fin 16) :=
  if h : v.toNat < 16 then .ok ⟨v.toNat, h⟩
  else match s.cfg.keyIndex with
    | .fault => .error (.keyIndexOutOfRange v)
    | .lowNibble => .ok (v.extractLsb' 0 4).toFin

/-- The three decimal digits of a byte, hundreds first (44_index_memory.md R174). -/
def bcdDigits (v : Byte) : List Byte :=
  [BitVec.ofNat 8 (v.toNat / 100), BitVec.ofNat 8 (v.toNat / 10 % 10), BitVec.ofNat 8 (v.toNat % 10)]

/-- V0..Vx in order (44_index_memory.md R175). -/
def State.regsUpTo (s : State) (x : Reg) : List Byte := s.v.toList.take (x.val + 1)

/-- V0..Vx replaced by the bytes from an address on (44_index_memory.md R176). -/
def State.loadRegs (s : State) (base : Nat) (x : Reg) : State :=
  { s with v := Vector.ofFn fun r => if r ≤ x then s.loadByte (base + r.val) else s.readV r }

/-- The address of a font glyph (44_index_memory.md R173), not masked. -/
def glyphAddr (v : Byte) : Word := BitVec.ofNat 16 (0x050 + v.toNat * 5)

/-- The sum of Fx1E (44_index_memory.md R172), by INDEX_ADD_WRAP. -/
def State.indexSum (s : State) (v : Byte) : Word :=
  match s.cfg.indexAddWrap with
  | .mod65536 => BitVec.ofNat 16 ((s.i.toNat + v.toNat) % 0x10000)
  | .mod4096 => BitVec.ofNat 16 ((s.i.toNat + v.toNat) % 0x1000)

/-- The column a draw falls on, wrapped (41_display.md R111). -/
def wrapX (k : Nat) : Fin 64 := ⟨k % 64, Nat.mod_lt _ (by decide)⟩

/-- The row a draw falls on, wrapped (41_display.md R111). -/
def wrapY (k : Nat) : Fin 32 := ⟨k % 32, Nat.mod_lt _ (by decide)⟩

/-- Column `col` of a sprite row byte, MSB first (41_display.md R111, 00_scope.md R13). -/
def spriteBit (b : Byte) (col : Nat) : Bool := b.getLsbD (7 - col)

/-- One 1 bit of a sprite: the collision flag set if the pixel is lit, then the pixel toggled (41_display.md R111). -/
def drawPixel (px : Fin 64) (py : Fin 32) (acc : Frame × Bool) : Frame × Bool :=
  (Frame.setPixel acc.1 px py (!(Frame.pixel acc.1 px py)), acc.2 || Frame.pixel acc.1 px py)

/-- One row of a sprite: its columns 0..7 in order (41_display.md R111). -/
def drawRow (cx cy : Nat) (b : Byte) (acc : Frame × Bool) : Frame × Bool :=
  (List.range 8).foldl (fun a col => if spriteBit b col then drawPixel (wrapX (cx + col)) (wrapY cy) a else a) acc

/-- The rows of a sprite in order, the first at row `cy` (41_display.md R111). -/
def drawRows (cx : Nat) : Nat → List Byte → Frame × Bool → Frame × Bool
  | _, [], acc => acc
  | cy, b :: bs, acc => drawRows cx (cy + 1) bs (drawRow cx cy b acc)

/-- The lowest-numbered key of a set, if it has one (45_keypad_timers.md R195). -/
def lowestKey (k : Keys) : Option (Fin 16) := (List.finRange 16).find? (fun j => k.getLsbD j.val)

/-- The keys released at the last look and pressed now (45_keypad_timers.md R195). -/
def newPresses (now baseline : Keys) : Keys := now &&& ~~~baseline

end Sys2Proof.Machine
end

