-- ==== Sys2Proof/Machine/Alu.lean ====
section
/-! DEFINITION. The register and ALU instructions (43_alu.md). Operands are read before any write (R140). -/

namespace Sys2Proof.Machine

/-- `6xnn` (R141). -/
def execLdImm (x : Reg) (nn : Byte) (s : State) : Outcome :=
  perform (.ldImm x nn) (fun t => .ok (t.writeV x nn)) s

/-- `7xnn` (R142): no flag. -/
def execAddImm (x : Reg) (nn : Byte) (s : State) : Outcome :=
  perform (.addImm x nn) (fun t => .ok (t.writeV x (addBytes (t.readV x) nn))) s

/-- `8xy0` (R143). -/
def execLdReg (x y : Reg) (s : State) : Outcome :=
  perform (.ldReg x y) (fun t => .ok (t.writeV x (t.readV y))) s

/-- `8xy1` (R144): VF is not reset. -/
def execOrReg (x y : Reg) (s : State) : Outcome :=
  perform (.orReg x y) (fun t => .ok (t.writeV x (t.readV x ||| t.readV y))) s

/-- `8xy2` (R145): VF is not reset. -/
def execAndReg (x y : Reg) (s : State) : Outcome :=
  perform (.andReg x y) (fun t => .ok (t.writeV x (t.readV x &&& t.readV y))) s

/-- `8xy3` (R146): VF is not reset. -/
def execXorReg (x y : Reg) (s : State) : Outcome :=
  perform (.xorReg x y) (fun t => .ok (t.writeV x (t.readV x ^^^ t.readV y))) s

/-- `8xy4` (R147). -/
def execAddReg (x y : Reg) (s : State) : Outcome :=
  perform (.addReg x y) (fun t =>
    .ok (t.writeResultFlag x (addBytes (t.readV x) (t.readV y)) (carry (t.readV x) (t.readV y)))) s

/-- `8xy5` (R148). -/
def execSub (x y : Reg) (s : State) : Outcome :=
  perform (.sub x y) (fun t =>
    .ok (t.writeResultFlag x (subBytes (t.readV x) (t.readV y)) (noBorrow (t.readV x) (t.readV y)))) s

/-- `8xy6` (R149). -/
def execShr (x y : Reg) (s : State) : Outcome :=
  perform (.shr x y) (fun t =>
    .ok (t.writeResultFlag x (shiftRight (t.shiftOperand x y)) (shiftedOutRight (t.shiftOperand x y)))) s

/-- `8xy7` (R150). -/
def execSubn (x y : Reg) (s : State) : Outcome :=
  perform (.subn x y) (fun t =>
    .ok (t.writeResultFlag x (subBytes (t.readV y) (t.readV x)) (noBorrow (t.readV y) (t.readV x)))) s

/-- `8xyE` (R151). -/
def execShl (x y : Reg) (s : State) : Outcome :=
  perform (.shl x y) (fun t =>
    .ok (t.writeResultFlag x (shiftLeft (t.shiftOperand x y)) (shiftedOutLeft (t.shiftOperand x y)))) s

/-- `Cxnn` (R152): each execution makes a new draw. -/
def execRnd (x : Reg) (nn : Byte) (s : State) : Outcome :=
  perform (.rnd x nn) (fun t => .ok (t.draw.2.writeV x (t.draw.1 &&& nn))) s

end Sys2Proof.Machine
end

