-- ==== Sys2Proof/Machine/Control.lean ====
section
/-! DEFINITION. The control transfer instructions (42_control.md). -/

namespace Sys2Proof.Machine

/-- `00EE` (R121). -/
def execRet (s : State) : Outcome :=
  perform .ret (fun t =>
    match t.pop with
    | .error f => .error f
    | .ok (target, u) => .ok (u.setPc target.toNat)) s

/-- `1nnn` (R122). -/
def execJp (nnn : Addr12) (s : State) : Outcome :=
  perform (.jp nnn) (fun t => .ok (t.setPc nnn.toNat)) s

/-- `2nnn` (R123): the return address pushed is the advanced PC. -/
def execCall (nnn : Addr12) (s : State) : Outcome :=
  perform (.call nnn) (fun t =>
    match t.push t.pc with
    | .error f => .error f
    | .ok u => .ok (u.setPc nnn.toNat)) s

/-- `3xnn` (R124). -/
def execSeImm (x : Reg) (nn : Byte) (s : State) : Outcome :=
  perform (.seImm x nn) (fun t => .ok (t.skipIf (t.readV x == nn))) s

/-- `4xnn` (R125). -/
def execSneImm (x : Reg) (nn : Byte) (s : State) : Outcome :=
  perform (.sneImm x nn) (fun t => .ok (t.skipIf (t.readV x != nn))) s

/-- `5xy0` (R126). -/
def execSeReg (x y : Reg) (s : State) : Outcome :=
  perform (.seReg x y) (fun t => .ok (t.skipIf (t.readV x == t.readV y))) s

/-- `9xy0` (R127). -/
def execSneReg (x y : Reg) (s : State) : Outcome :=
  perform (.sneReg x y) (fun t => .ok (t.skipIf (t.readV x != t.readV y))) s

/-- `Bnnn` (R128): the offset register is always V0. -/
def execJpV0 (nnn : Addr12) (s : State) : Outcome :=
  perform (.jpV0 nnn) (fun t => .ok (t.setPc (nnn.toNat + (t.readV 0).toNat))) s

end Sys2Proof.Machine
end

