-- ==== Sys2Proof/Machine/Display.lean ====
section
/-! DEFINITION. The display instructions (41_display.md). -/

namespace Sys2Proof.Machine

/-- `00E0` (R110). -/
def execCls (s : State) : Outcome :=
  perform .cls (fun t => .ok (t.setFb Frame.clear)) s

/-- `Dxyn` (R111): the coordinates and the sprite are read first, the check of the sprite's addresses before any write. -/
def execDrw (x y : Reg) (n : Fin 16) (s : State) : Outcome :=
  perform (.drw x y n) (fun t =>
    match t.memRead t.i.toNat n.val with
    | .error f => .error f
    | .ok rows =>
      let drawn := drawRows ((t.readV x).toNat % 64) ((t.readV y).toNat % 32) rows (t.fb, false)
      .ok ((t.writeV vf (flagByte drawn.2)).setFb drawn.1)) s

end Sys2Proof.Machine
end

