-- ==== Sys2Proof/Machine/IndexMemory.lean ====
section
/-! DEFINITION. The index register and memory instructions (44_index_memory.md). None changes I as a side effect (R170). -/

namespace Sys2Proof.Machine

/-- `Annn` (R171): nnn zero-extended to 16 bits. -/
def execLdI (nnn : Addr12) (s : State) : Outcome :=
  perform (.ldI nnn) (fun t => .ok (t.setI (nnn.setWidth 16))) s

/-- `Fx1E` (R172): VF is unchanged. -/
def execAddIVx (x : Reg) (s : State) : Outcome :=
  perform (.addIVx x) (fun t => .ok (t.setI (t.indexSum (t.readV x)))) s

/-- `Fx29` (R173). -/
def execLdFVx (x : Reg) (s : State) : Outcome :=
  perform (.ldFVx x) (fun t => .ok (t.setI (glyphAddr (t.readV x)))) s

/-- `Fx33` (R174). -/
def execLdBVx (x : Reg) (s : State) : Outcome :=
  perform (.ldBVx x) (fun t => t.memWrite t.i.toNat (bcdDigits (t.readV x))) s

/-- `Fx55` (R175). -/
def execLdMemVx (x : Reg) (s : State) : Outcome :=
  perform (.ldMemVx x) (fun t => t.memWrite t.i.toNat (t.regsUpTo x)) s

/-- `Fx65` (R176). -/
def execLdVxMem (x : Reg) (s : State) : Outcome :=
  perform (.ldVxMem x) (fun t =>
    match firstInvalid t.i.toNat (x.val + 1) with
    | some a => .error (.addressOutOfRange a)
    | none => .ok (t.loadRegs t.i.toNat x)) s

end Sys2Proof.Machine
end

