-- ==== Sys2Proof/Machine/KeypadTimers.lean ====
section
/-! DEFINITION. The keypad and timer instructions (45_keypad_timers.md), and the poll of mode AWAITING_KEY (R195). -/

namespace Sys2Proof.Machine

/-- `Ex9E` (R191). -/
def execSkp (x : Reg) (s : State) : Outcome :=
  perform (.skp x) (fun t =>
    match t.keyIndex (t.readV x) with
    | .error f => .error f
    | .ok k => .ok (t.skipIf (t.keyPressed k))) s

/-- `ExA1` (R192). -/
def execSknp (x : Reg) (s : State) : Outcome :=
  perform (.sknp x) (fun t =>
    match t.keyIndex (t.readV x) with
    | .error f => .error f
    | .ok k => .ok (t.skipIf (!(t.keyPressed k)))) s

/-- `Fx07` (R193). -/
def execLdVxDt (x : Reg) (s : State) : Outcome :=
  perform (.ldVxDt x) (fun t => .ok (t.writeV x t.dt)) s

/-- `Fx0A`, the tick that fetches it (R194): PC is set back to A and the keypad becomes the baseline. -/
def execLdVxK (x : Reg) (s : State) : Outcome :=
  perform (.ldVxK x) (fun t => .ok ((t.setPc s.pc.toNat).setMode (.awaitingKey x t.keys))) s

/-- `Fx15` (R196). -/
def execLdDtVx (x : Reg) (s : State) : Outcome :=
  perform (.ldDtVx x) (fun t => .ok (t.setDt (t.readV x))) s

/-- `Fx18` (R197). -/
def execLdStVx (x : Reg) (s : State) : Outcome :=
  perform (.ldStVx x) (fun t => .ok (t.setSt (t.readV x))) s

/-- `Fx0A` continued: the instruction tick in mode AWAITING_KEY(x, baseline) (R195). It fetches nothing. -/
def pollKeypad (x : Reg) (baseline : Keys) (s : State) : State :=
  match lowestKey (newPresses s.keys baseline) with
  | none => s.setMode (.awaitingKey x s.keys)
  | some k => ((s.writeV x (BitVec.ofNat 8 k.val)).setPc (s.pc.toNat + 2)).setMode .running

end Sys2Proof.Machine
end

