-- ==== Sys2Proof/Machine/HostOps.lean ====
section
/-! DEFINITION. The operations that are not instructions: the timer tick (60_exceptions.md R225), the keypad write (R239),
the program load and the reset (70_reset_and_hazards.md), and the output ports (R236 to R242). -/

namespace Sys2Proof.Machine

/-- One timer's countdown: a timer at 0 stays at 0 (60_exceptions.md R225). -/
def countDown (b : Byte) : Byte := if b = 0 then 0 else BitVec.ofNat 8 (b.toNat - 1)

/-- `timer_tick()` (60_exceptions.md R225), in every mode (R227). -/
def timerTick (s : State) : State := (s.setDt (countDown s.dt)).setSt (countDown s.st)

/-- The keypad port: the host sets the 16 keys (60_exceptions.md R239). -/
def setKeys (k : Keys) (s : State) : State := { s with keys := k }

/-- The longest program, 4096 - 0x200 bytes (00_scope.md R8). -/
def progMax : Nat := 3584

/-- `load`: the bytes copied to 0x200 on and PC set to 0x200, or ProgramTooLarge (70_reset_and_hazards.md R251, R252). -/
def loadProgram (bytes : List Byte) (s : State) : Except Fault State :=
  if bytes.length ≤ progMax then .ok ((s.storeBytes 0x200 bytes).setPc 0x200)
  else .error (.programTooLarge bytes.length)

/-- The load operation with its result returned to the host: a rejected load changes nothing else (R252, log entry 7). -/
def loadOperation (bytes : List Byte) (s : State) : State :=
  match loadProgram bytes s with
  | .ok t => { t with loadResults := t.loadResults ++ [.loaded] }
  | .error f => { s with loadResults := s.loadResults ++ [.rejected f] }

/-- `reset` (70_reset_and_hazards.md R250): every element of the core's state at its construction value. The model's own
fields, which are no state of the core, are kept (log entry 15). -/
def resetOperation (s : State) : State :=
  { State.construct s.cfg with
    draws := s.draws, reports := s.reports, loadResults := s.loadResults, schedule := s.schedule }

/-- The framebuffer port: bit y*64+x is pixel (x, y) lit (60_exceptions.md R236, R238). -/
def fbPort (s : State) (k : Fin 2048) : Bool :=
  Frame.pixel s.fb ⟨k.val % 64, Nat.mod_lt _ (by decide)⟩ ⟨k.val / 64, by omega⟩

/-- The `sound` port: ST is not 0 (60_exceptions.md R240). -/
def soundPort (s : State) : Bool := s.st != 0

/-- The `st` port: the value of ST (60_exceptions.md R240). -/
def stPort (s : State) : Byte := s.st

/-- The status port: the mode, with the fault record in HALTED (60_exceptions.md R242). -/
def statusPort (s : State) : Mode := s.mode

/-- The report port: the records emitted so far (60_exceptions.md R241). -/
def reportPort (s : State) : List Report := s.reports

end Sys2Proof.Machine
end

