-- ==== Sys2Proof/Machine/Tick.lean ====
section
/-! DEFINITION. The instruction tick in each mode (40_execution_cycle.md), unknown words, and the transition of each
event of the port list (60_exceptions.md R236, R237). -/

namespace Sys2Proof.Machine

/-- The fetch (40_execution_cycle.md R91, R92): the big-endian word at PC, or AddressOutOfRange. -/
def fetchWord (s : State) : Except Fault Word :=
  match firstInvalid s.pc.toNat 2 with
  | some a => .error (.addressOutOfRange a)
  | none => .ok (s.wordAt s.pc.toNat)

/-- An unknown word fetched at A = PC (40_execution_cycle.md R99), by UNKNOWN_POLICY. -/
def unknownWord (w : Word) (s : State) : State :=
  match s.cfg.unknownPolicy with
  | .continueOn => s.advance.report w s.pc
  | .halt => s.takeFault .unknownInstruction (some w)

/-- The instruction tick in mode RUNNING (40_execution_cycle.md R90): fetch, decode, execute. -/
def tickRunning (s : State) : Outcome :=
  match fetchWord s with
  | .error f => .next (s.takeFault f none)
  | .ok w =>
    match decode w with
    | .known i => exec i s
    | .unknown u => .next (unknownWord u s)

/-- One instruction tick, by mode (40_execution_cycle.md R90, R96, R97). -/
def instrTick (s : State) : Outcome :=
  match s.mode with
  | .running => tickRunning s
  | .awaitingKey x baseline => .next (pollKeypad x baseline s)
  | .halted _ => .next s

/-- The transition of one event (60_exceptions.md R237: each is atomic). -/
def applyEvent (e : Event) (s : State) : Outcome :=
  match e with
  | .instrTick => instrTick s
  | .timerTick => .next (timerTick s)
  | .setKeys k => .next (setKeys k s)
  | .load bytes => .next (loadOperation bytes s)
  | .reset => .next (resetOperation s)

/-- The transitions of a list of events, in order (60_exceptions.md R231). -/
def applyEvents : List Event → State → Outcome
  | [], s => .next s
  | e :: es, s =>
    match applyEvent e s with
    | .next t => applyEvents es t
    | .fault f => .fault f
    | .refused r => .refused r

/-- Where the next instruction word is placed: at PC, or at 0x200 where no word fits at PC (log entry 10). -/
def fetchPlace (s : State) : Nat := if s.pc.toNat < 0xFFF then s.pc.toNat else 0x200

/-- The state in which the next tick fetches a word: stored big-endian at the fetch place, in mode RUNNING (log entry 10). -/
def placeWord (w : Word) (s : State) : State :=
  ((s.storeBytes (fetchPlace s) (wordBytes w)).setPc (fetchPlace s)).setMode .running

end Sys2Proof.Machine
end

