-- ==== Sys2Proof/Machine/Step.lean ====
section
/-! DEFINITION. One step: the next event of the schedule, or an instruction tick when none is scheduled (log entry 5). -/

namespace Sys2Proof.Machine

/-- One atomic transition of the machine (60_exceptions.md R231, R237). -/
def step (s : State) : Host.Outcome State Fault Refusal :=
  match s.schedule with
  | [] => instrTick s
  | e :: rest => applyEvent e { s with schedule := rest }

/-- The state whose next step fetches and runs the instruction of an opcode-table word (log entry 10). -/
def State.withFetchWord (s : State) (nbits w : Nat) : State :=
  { placeWord (BitVec.ofNat 16 (w % 2 ^ nbits)) s with schedule := [] }

end Sys2Proof.Machine
end

