-- ==== Sys2Proof/Machine/Scheduler.lean ====
section
/-! DEFINITION. The reference scheduler of 60_exceptions.md R230: it belongs to the host and produces the events of one
iteration; nothing of the core reads it (10_state.md R21, log entry 16). -/

namespace Sys2Proof.Machine

/-- The scheduler's two accumulators, in seconds, and its instruction rate CPU_HZ (00_scope.md R9: OPEN, positive). -/
structure Scheduler where
  cpuHz : Rat
  accCpu : Rat
  accTimer : Rat
  deriving DecidableEq, Repr

/-- The scheduler's start state: both accumulators 0 (60_exceptions.md R230). -/
def Scheduler.start (cpuHz : Rat) : Scheduler where
  cpuHz := cpuHz
  accCpu := 0
  accTimer := 0

/-- TIMER_HZ (00_scope.md R8). -/
def timerHz : Rat := 60

/-- How often `while acc >= 1/hz: acc <- acc - 1/hz` runs (60_exceptions.md R230). -/
def ticksDue (acc hz : Rat) : Nat := (acc * hz).floor.toNat

/-- What the accumulator holds after the loop (60_exceptions.md R230). -/
def accAfter (acc hz : Rat) : Rat := acc - (ticksDue acc hz : Rat) / hz

/-- `iteration(dt)` (60_exceptions.md R230): the instruction ticks due, then the timer ticks due. -/
def Scheduler.iteration (c : Scheduler) (dt : Rat) : List Event × Scheduler :=
  (List.replicate (ticksDue (c.accCpu + dt) c.cpuHz) .instrTick
      ++ List.replicate (ticksDue (c.accTimer + dt) timerHz) .timerTick,
    { c with accCpu := accAfter (c.accCpu + dt) c.cpuHz, accTimer := accAfter (c.accTimer + dt) timerHz })

/-- The iterations of a run one after another, of the durations given: the events they issue in order, and the scheduler
they leave (60_exceptions.md R230). -/
def Scheduler.run (c : Scheduler) : List Rat → List Event × Scheduler
  | [] => ([], c)
  | dt :: rest =>
    let one := c.iteration dt
    let more := Scheduler.run one.2 rest
    (one.1 ++ more.1, more.2)

end Sys2Proof.Machine
end

