-- ==== Sys2Proof/Safety.lean ====
section
/-! DEFINITION. The terms claims use: the state invariant, reachable states and fair event sequences
(60_exceptions.md R231), and runs without a fault or a report. -/

namespace Sys2Proof.Machine

/-- A record the core can make (60_exceptions.md R211): the kind is one an instruction tick raises, with the info of its
condition. -/
def FaultRecord.legal (f : FaultRecord) : Bool :=
  match f.kind with
  | .unknownInstruction => f.word.isSome
  | .stackOverflow => f.word.isSome
  | .stackUnderflow => f.word.isSome
  | .addressOutOfRange a => decide (0xFFF < a)
  | .keyIndexOutOfRange v => decide (15 < v.toNat) && f.word.isSome
  | .programTooLarge _ => false

/-- The mode is RUNNING, AWAITING_KEY, or HALTED with a record the core can make (10_state.md R37). -/
def Mode.legal : Mode → Bool
  | .running => true
  | .awaitingKey _ _ => true
  | .halted f => f.legal

/-- The live entries of the call stack are addresses (10_state.md R28, 42_control.md R121). -/
def State.stackLive (s : State) : Prop := ∀ k : Fin 16, k.val < s.sp.val → (s.stack[k.val]).toNat < 0x1000

/-- The invariant of the machine: PC below 0x1000 (10_state.md R24), memory in its canonical form, the live return
addresses below 0x1000 (42_control.md R121), and a legal mode (10_state.md R37). -/
structure State.Inv (s : State) : Prop where
  pc : s.pc.toNat < 0x1000
  mem : Memory.wf s.cfg.font s.mem = true
  stack : s.stackLive
  mode : s.mode.legal = true

/-- A state some sequence of events leads to from construction (60_exceptions.md R231). -/
inductive Reachable (cfg : Config) : State → Prop where
  | construct : Reachable cfg (State.construct cfg)
  | event {s t : State} (e : Event) : Reachable cfg s → applyEvent e s = .next t → Reachable cfg t

/-- Weak fairness of the scheduler (60_exceptions.md R231): infinitely many instruction ticks and timer ticks. -/
def Fair (events : Nat → Event) : Prop :=
  (∀ n, ∃ m, n ≤ m ∧ events m = .instrTick) ∧ (∀ n, ∃ m, n ≤ m ∧ events m = .timerTick)

/-- No fault has been taken: the mode is not HALTED (00_scope.md R18). -/
def State.unfaulted (s : State) : Bool :=
  match s.mode with
  | .halted _ => false
  | _ => true

/-- No unknown word has been reported (60_exceptions.md R241: "a claim can require that no report was made"). -/
def State.unreported (s : State) : Bool := s.reports.isEmpty

/-- The parts of the state beside V and PC, for frames. -/
inductive Part where
  | index
  | stack
  | delayTimer
  | soundTimer
  | memory
  | screen
  | keypad
  | mode
  | config
  | draws
  | reports
  | loadResults
  | schedule
  deriving DecidableEq, Repr

/-- A part is the same in two states; memory and the framebuffer are compared by reading every byte and every pixel. -/
def Part.same (s t : State) : Part → Prop
  | .index => t.i = s.i
  | .stack => t.sp = s.sp ∧ t.stack = s.stack
  | .delayTimer => t.dt = s.dt
  | .soundTimer => t.st = s.st
  | .memory => ∀ a : Nat, t.loadByte a = s.loadByte a
  | .screen => ∀ (px : Fin 64) (py : Fin 32), Frame.pixel t.fb px py = Frame.pixel s.fb px py
  | .keypad => t.keys = s.keys
  | .mode => t.mode = s.mode
  | .config => t.cfg = s.cfg
  | .draws => t.draws = s.draws
  | .reports => t.reports = s.reports
  | .loadResults => t.loadResults = s.loadResults
  | .schedule => t.schedule = s.schedule

/-- The frame: every part but those named, and every general register but those named, is the same. PC may differ. -/
def Unchanged (parts : List Part) (regs : List Reg) (s t : State) : Prop :=
  (∀ p : Part, p ∉ parts → p.same s t) ∧ (∀ r : Reg, r ∉ regs → t.readV r = s.readV r)

/-- The meanings of a list of instructions one after another. -/
def execAll : List Instr → State → Outcome
  | [], s => .next s
  | i :: is, s =>
    match exec i s with
    | .next t => execAll is t
    | .fault f => .fault f
    | .refused r => .refused r

/-- Pixel (px, py) lies under a 1 bit of the n-row sprite at I drawn at (Vx, Vy), with both wraps (41_display.md R111):
column `dx` and row `dy` of the sprite fall on it. -/
def spriteCovers (s : State) (x y : Reg) (n : Fin 16) (px : Fin 64) (py : Fin 32) : Bool :=
  let dx := (px.val + 64 - (s.readV x).toNat % 64) % 64
  let dy := (py.val + 32 - (s.readV y).toNat % 32) % 32
  decide (dx < 8) && decide (dy < n.val) && (s.loadByte (s.i.toNat + dy)).getLsbD (7 - dx)

/-- An operand of a fetch, draw, store or load through addresses `base .. base + n - 1` is wholly valid (20_memory.md R52). -/
abbrev validRange (base n : Nat) : Prop := n = 0 ∨ base + (n - 1) ≤ 0xFFF

/-- What a byte of memory is after Fx55 stored V0..Vx at I on (44_index_memory.md R175). -/
def byteAfterStore (s : State) (x : Reg) (a : Nat) : Byte :=
  if s.i.toNat ≤ a ∧ a ≤ s.i.toNat + x.val then s.readV (Fin.ofNat 16 (a - s.i.toNat)) else s.loadByte a

end Sys2Proof.Machine
end

