-- ==== Sys2Proof/Certificates/Slice0/Obligations.lean ====
section
/-! DEFINITION. The statements for the provers. A clause that rests on the model's own choice names its log entry. -/

open Sys2Proof Sys2Proof.Machine

/-! ## Encoding -/

/-- R80: the encoding of every instruction is its row's match with its operand fields in place, and decoding inverts it
(which the spec marks as derived). -/
def Obligations.DecodeInvertsEncode : Prop :=
  ∀ i : Instr,
    (∃ r ∈ opcodeMap, r.mnemonic = i.mnemonic ∧ encode i = r.value ||| i.operands.fields) ∧
    decode (encode i) = .known i

/-- Each word has one meaning: a word that decodes to an instruction is that instruction's encoding (R71, R74). -/
def Obligations.DecodedWordIsItsEncoding : Prop :=
  ∀ (w : Word) (i : Instr), decode w = .known i → encode i = w

/-- The unknown words are those of the table of R76, and the unknown variant carries the raw word (R75). -/
def Obligations.UnknownWordsAreTheTabled : Prop :=
  ∀ w u : Word, decode w = .unknown u ↔
    (u = w ∧
      ((w.toNat / 4096 = 0 ∧ w.toNat ≠ 0x00E0 ∧ w.toNat ≠ 0x00EE) ∨
       (w.toNat / 4096 = 5 ∧ w.toNat % 16 ≠ 0) ∨
       (w.toNat / 4096 = 8 ∧ (w.toNat % 16 = 15 ∨ (8 ≤ w.toNat % 16 ∧ w.toNat % 16 ≤ 13))) ∨
       (w.toNat / 4096 = 9 ∧ w.toNat % 16 ≠ 0) ∨
       (w.toNat / 4096 = 14 ∧ w.toNat % 256 ≠ 0x9E ∧ w.toNat % 256 ≠ 0xA1) ∨
       (w.toNat / 4096 = 15 ∧
         w.toNat % 256 ∉ [0x07, 0x0A, 0x15, 0x18, 0x1E, 0x29, 0x33, 0x55, 0x65])))

/-- R74: a word decodes to the row it matches, its operands being the other bits, and to no other row: the rows are
pairwise disjoint (which the spec marks as derived). -/
def Obligations.OpcodeMapDecidesDecode : Prop :=
  ∀ w : Word, ∀ r ∈ opcodeMap, r.covers w = true →
    (∃ i, decode w = .known i ∧ i.mnemonic = r.mnemonic ∧ w = r.value ||| i.operands.fields) ∧
    (∀ q ∈ opcodeMap, q.covers w = true → q = r)

/-- R71: the fields of a word, as the masks and shifts of the source. -/
def Obligations.FieldsAreMaskedAndShifted : Prop :=
  ∀ w : Word,
    opOf w = ((w &&& 0xF000) >>> 12).toNat ∧ (xOf w).val = ((w &&& 0x0F00) >>> 8).toNat ∧
    (yOf w).val = ((w &&& 0x00F0) >>> 4).toNat ∧ (nOf w).val = (w &&& 0x000F).toNat ∧
    (nnOf w).toNat = (w &&& 0x00FF).toNat ∧ (nnnOf w).toNat = (w &&& 0x0FFF).toNat

/-- A word of each kind, written out from the opcode map (R74), decodes to the instruction it stands for. -/
def Obligations.SampleWordsDecode : Prop :=
  decode 0b0000000011100000 = .known .cls ∧
  decode 0b0010001100000000 = .known (.call 0x300) ∧
  decode 0b0011001101000010 = .known (.seImm 3 0x42) ∧
  decode 0b1000000100100100 = .known (.addReg 1 2) ∧
  decode 0b1010000100100011 = .known (.ldI 0x123) ∧
  decode 0b1101000100100000 = .known (.drw 1 2 0) ∧
  decode 0b1110010110011110 = .known (.skp 5) ∧
  decode 0b1111001001010101 = .known (.ldMemVx 2) ∧
  decode 0xFFF0 = .unknown 0xFFF0

/-! ## The cycle -/

/-- R90, R95 (log entry 5 for the schedule): with nothing scheduled, in mode RUNNING, at a PC where a word fits, a step
is the meaning of the instruction the two bytes at PC decode to. The meaning starts from the start of the tick. -/
def Obligations.StepRunsDecodedInstruction : Prop :=
  ∀ (s : State) (i : Instr), s.schedule = [] → s.mode = .running → s.pc.toNat < 0xFFF →
    decode (s.wordAt s.pc.toNat) = .known i → step s = exec i s

/-- R237 (log entry 5): a step takes the first scheduled transition, and that transition alone. -/
def Obligations.StepTakesScheduledEvent : Prop :=
  ∀ (s : State) (e : Event) (rest : List Event), s.schedule = e :: rest →
    step s = applyEvent e { s with schedule := rest }

/-- R92 (the spec's decisions D6, D7, D15): the fetch at 0xFFF faults with 0x1000, no word in the record; at 0xFFE it
reads the last two bytes and PC becomes 0. -/
def Obligations.FetchAtTopOfMemory : Prop :=
  (∀ s : State, s.mode = .running → s.pc = 0xFFF →
    instrTick s = .next { s with mode := .halted ⟨.addressOutOfRange 0x1000, 0xFFF, none⟩ }) ∧
  (∀ s : State, s.pc = 0xFFE →
    fetchWord s = .ok (s.loadByte 0xFFE ++ s.loadByte 0xFFF) ∧ s.advance.pc = 0)

/-- R99, R213 (the spec's decisions D14 for the policy and D15 for HALTED): an unknown word under Continue is reported
with the address it was fetched from (log entry 6 for the stream) and PC advances, nothing else changing; under Halt it
faults, which is HALTED with the record of R213 and nothing else changed (log entry 8). -/
def Obligations.UnknownWordIsReportedOrHalts : Prop :=
  ∀ (s : State) (w : Word), s.mode = .running → s.pc.toNat < 0xFFF →
    s.wordAt s.pc.toNat = w → decode w = .unknown w →
    (s.cfg.unknownPolicy = .continueOn → ∃ t, instrTick s = .next t ∧ t.reports = s.reports ++ [⟨w, s.pc⟩] ∧
      t.pc.toNat = (s.pc.toNat + 2) % 0x1000 ∧ Unchanged [.reports] [] s t) ∧
    (s.cfg.unknownPolicy = .halt →
      instrTick s = .next { s with mode := .halted ⟨.unknownInstruction, s.pc, some w⟩ })

/-- R97, R218 (the spec's decision D15; D19 for the timer tick and D20 for the load): an instruction tick in HALTED
changes nothing, and no transition but reset leaves HALTED. -/
def Obligations.HaltedStaysUntilReset : Prop :=
  ∀ (s : State) (f : FaultRecord), s.mode = .halted f →
    instrTick s = .next s ∧
    (∀ (e : Event) (t : State), applyEvent e s = .next t → e ≠ .reset → t.mode = .halted f) ∧
    (∃ t, applyEvent .reset s = .next t ∧ t.mode = .running)

/-- R100 (HALTED by the spec's decision D15, the poll by D13): the mode transitions, and nothing else. -/
def Obligations.ModeChangesOnlyAsTabled : Prop :=
  ∀ (s t : State) (e : Event), applyEvent e s = .next t →
    (e = .instrTick → s.mode = .running →
      (∃ x, s.pc.toNat < 0xFFF ∧
        decode (s.wordAt s.pc.toNat) = .known (.ldVxK x) ∧
        t.mode = .awaitingKey x s.keys ∧ t.pc = s.pc) ∨
      ((∀ x, s.pc.toNat < 0xFFF →
          decode (s.wordAt s.pc.toNat) ≠ .known (.ldVxK x)) ∧
        (t.mode = .running ∨ ∃ f, t.mode = .halted f))) ∧
    (∀ x b, e = .instrTick → s.mode = .awaitingKey x b →
      (t.mode = .awaitingKey x s.keys ∧ t.pc = s.pc ∧ ∀ k : Fin 16, s.keyPressed k = true → b.getLsbD k.val = true) ∨
      (t.mode = .running ∧ t.pc.toNat = (s.pc.toNat + 2) % 0x1000 ∧
        ∃ k : Fin 16, s.keyPressed k = true ∧ b.getLsbD k.val = false ∧ (t.readV x).toNat = k.val)) ∧
    (∀ f, e = .instrTick → s.mode = .halted f → t.mode = .halted f) ∧
    (e = .timerTick → t.mode = s.mode) ∧
    (∀ k, e = .setKeys k → t.mode = s.mode) ∧
    (∀ bytes, e = .load bytes → t.mode = s.mode) ∧
    (e = .reset → t.mode = .running)

/-- R232: no instruction besides Fx0A suspends, and a poll that does not complete the wait shows AWAITING_KEY; that the
keypad is then the baseline it shows is R195 by the spec's decision D13. -/
def Obligations.OnlyKeyWaitSuspends : Prop :=
  (∀ (i : Instr) (s t : State), exec i s = .next t → (∀ x b, s.mode ≠ .awaitingKey x b) →
    (∃ x b, t.mode = .awaitingKey x b) → ∃ x, i = .ldVxK x) ∧
  (∀ (s t : State) (x : Reg) (b : Keys), s.mode = .awaitingKey x b → instrTick s = .next t → t.mode ≠ .running →
    statusPort t = .awaitingKey x s.keys)

/-- R213 (the spec's decision D15): an instruction tick that faults leaves the state at the start of the tick but for
the mode, whose record holds A and the fetched word (none for a fetch fault), and a kind whose code is one of 1 to 5.
-/
def Obligations.FaultLeavesStartOfTick : Prop :=
  ∀ (s t : State) (f : FaultRecord), s.mode = .running → instrTick s = .next t → t.mode = .halted f →
    t = { s with mode := .halted f } ∧ f.addr = s.pc ∧
    f.word = (if s.pc.toNat < 0xFFF then some (s.wordAt s.pc.toNat) else none) ∧
    1 ≤ f.kind.code ∧ f.kind.code ≤ 5

/-- R215 (the spec's derivation): each instruction has at most the fault named for it, and no other instruction
faults. -/
def Obligations.EachInstructionHasItsFault : Prop :=
  ∀ (i : Instr) (s t : State) (f : FaultRecord), s.unfaulted = true → exec i s = .next t → t.mode = .halted f →
    (f.kind = .stackOverflow ∧ (∃ nnn, i = .call nnn) ∧ s.sp.val = 16) ∨
    (f.kind = .stackUnderflow ∧ i = .ret ∧ s.sp.val = 0) ∨
    (∃ a, f.kind = .addressOutOfRange a ∧ 0xFFF < a ∧
      ((∃ x y n, i = .drw x y n) ∨ (∃ x, i = .ldBVx x ∨ i = .ldMemVx x ∨ i = .ldVxMem x))) ∨
    (∃ x, f.kind = .keyIndexOutOfRange (s.readV x) ∧ 15 < (s.readV x).toNat ∧ (i = .skp x ∨ i = .sknp x))

/-- R210 "every failure path returns a typed result" (log entry 8): a step always answers a next state. -/
def Obligations.StepAlwaysAnswersNext : Prop :=
  ∀ s : State, ∃ t, step s = .next t

/-- R33, R241 (log entries 1, 5, 7): no instruction writes the keypad, the configuration, the schedule, the load results
or the report stream. -/
def Obligations.InstructionsLeaveHostSide : Prop :=
  ∀ (i : Instr) (s t : State), exec i s = .next t →
    t.keys = s.keys ∧ t.cfg = s.cfg ∧ t.schedule = s.schedule ∧ t.loadResults = s.loadResults ∧ t.reports = s.reports

/-- R27: only Annn, Fx1E and Fx29 write I, and only Fx1E can make I exceed 0xFFF. -/
def Obligations.OnlyIndexInstructionsWriteI : Prop :=
  ∀ (i : Instr) (s t : State), exec i s = .next t → t.i ≠ s.i →
    ((∃ nnn, i = .ldI nnn) ∨ (∃ x, i = .addIVx x) ∨ (∃ x, i = .ldFVx x)) ∧
    (0xFFF < t.i.toNat → ∃ x, i = .addIVx x)

/-- R64, R257: what a store of Fx55 writes is what the next fetch at any address sees. -/
def Obligations.NextFetchSeesStoredBytes : Prop :=
  ∀ (x : Reg) (s : State), s.i.toNat + x.val ≤ 0xFFF → ∃ t, exec (.ldMemVx x) s = .next t ∧
    ∀ a : Nat, a < 0xFFF →
      fetchWord (t.setPc a) = .ok (byteAfterStore s x a ++ byteAfterStore s x (a + 1))

/-! ## The invariant -/

/-- R24 (the spec's decision D9), R121, R37 and the canonical form of memory (log entry 13): every transition, the
scheduled ones too, keeps the invariant. -/
def Obligations.StepKeepsInvariant : Prop :=
  ∀ s t : State, s.Inv → step s = .next t → t.Inv

/-- The state at construction meets the invariant, under every configuration. -/
def Obligations.ConstructionMeetsInvariant : Prop :=
  ∀ cfg : Config, (State.construct cfg).Inv

/-- Every reachable state meets the invariant and has the configuration it was constructed with (R231). -/
def Obligations.ReachableStatesMeetInvariant : Prop :=
  ∀ (cfg : Config) (s : State), Reachable cfg s → s.Inv ∧ s.cfg = cfg

/-! ## Display -/

/-- R110: every pixel unlit, nothing else changed. -/
def Obligations.ClearScreenUnlitsEveryPixel : Prop :=
  ∀ s : State, ∃ t, exec .cls s = .next t ∧ (∀ px py, Frame.pixel t.fb px py = false) ∧
    t.pc.toNat = (s.pc.toNat + 2) % 0x1000 ∧ Unchanged [.screen] [] s t

/-- R111 (HALTED by the spec's decisions D6, D15): exactly the pixels under a 1 bit of the sprite are toggled, VF says
whether one of them was lit, and an invalid sprite address faults before any write. -/
def Obligations.DrawTogglesSpritePixels : Prop :=
  ∀ (x y : Reg) (n : Fin 16) (s : State),
    (validRange s.i.toNat n.val → ∃ t, exec (.drw x y n) s = .next t ∧
      (∀ px py, Frame.pixel t.fb px py = (Frame.pixel s.fb px py ^^ spriteCovers s x y n px py)) ∧
      ((∃ px py, spriteCovers s x y n px py = true ∧ Frame.pixel s.fb px py = true) → t.readV vf = 1) ∧
      ((∀ px py, spriteCovers s x y n px py = true → Frame.pixel s.fb px py = false) → t.readV vf = 0) ∧
      t.pc.toNat = (s.pc.toNat + 2) % 0x1000 ∧ Unchanged [.screen] [vf] s t) ∧
    (¬ validRange s.i.toNat n.val → exec (.drw x y n) s =
      .next { s with mode := .halted ⟨.addressOutOfRange (max s.i.toNat 0x1000), s.pc, some (encode (.drw x y n))⟩ })

/-- R112 (the VF clause is the spec's derivation): a second draw of the same sprite at the same place restores every
pixel, and sets VF exactly when some 1 bit fell on a pixel that was unlit before the first. -/
def Obligations.DrawTwiceRestoresScreen : Prop :=
  ∀ (x y : Reg) (n : Fin 16) (s t u : State), validRange s.i.toNat n.val →
    exec (.drw x y n) s = .next t → (t.readV x).toNat % 64 = (s.readV x).toNat % 64 →
    (t.readV y).toNat % 32 = (s.readV y).toNat % 32 → exec (.drw x y n) t = .next u →
    (∀ px py, Frame.pixel u.fb px py = Frame.pixel s.fb px py) ∧
    (u.readV vf = 1 ↔ ∃ px py, spriteCovers s x y n px py = true ∧ Frame.pixel s.fb px py = false)

/-! ## Control transfer -/

/-- R122: a jump replaces PC by nnn, and changes nothing else. -/
def Obligations.JumpReplacesPc : Prop :=
  ∀ (nnn : Addr12) (s : State), ∃ t, exec (.jp nnn) s = .next t ∧ t.pc.toNat = nnn.toNat ∧ Unchanged [] [] s t

/-- R128 (the spec's decisions D9 and D30): Bnnn adds V0, never Vx, modulo 0x1000, and changes nothing but PC. -/
def Obligations.JumpOffsetIsAlwaysV0 : Prop :=
  ∀ (nnn : Addr12) (s : State), ∃ t, exec (.jpV0 nnn) s = .next t ∧
    t.pc.toNat = (nnn.toNat + (s.readV 0).toNat) % 0x1000 ∧ Unchanged [] [] s t

/-- R123 (HALTED by the spec's decision D15): a call pushes the advanced PC and jumps; with a full stack it faults. -/
def Obligations.CallPushesReturnAddress : Prop :=
  ∀ (nnn : Addr12) (s : State),
    (∀ h : s.sp.val < 16, ∃ t, exec (.call nnn) s = .next t ∧ t.sp.val = s.sp.val + 1 ∧
      (t.stack[s.sp.val]).toNat = (s.pc.toNat + 2) % 0x1000 ∧
      (∀ k : Fin 16, k.val ≠ s.sp.val → t.stack[k.val] = s.stack[k.val]) ∧
      t.pc.toNat = nnn.toNat ∧ Unchanged [.stack] [] s t) ∧
    (s.sp.val = 16 → exec (.call nnn) s =
      .next { s with mode := .halted ⟨.stackOverflow, s.pc, some (encode (.call nnn))⟩ })

/-- R121 (HALTED by the spec's decision D15): a return pops into PC and leaves the popped entry in place; with an
empty stack it faults. -/
def Obligations.ReturnPopsReturnAddress : Prop :=
  ∀ s : State,
    (∀ k : Fin 16, s.sp.val = k.val + 1 → ∃ t, exec .ret s = .next t ∧ t.sp.val = k.val ∧ t.stack = s.stack ∧
      t.pc.toNat = (s.stack[k.val]).toNat % 0x1000 ∧ Unchanged [.stack] [] s t) ∧
    (s.sp.val = 0 → exec .ret s = .next { s with mode := .halted ⟨.stackUnderflow, s.pc, some 0x00EE⟩ })

/-- R130 (its bounds are the spec's derivation): N nested calls and N returns come back after the first call site; one
more return underflows, and a 17th nested call overflows, each of them HALTED with the record of R213 and nothing else
changed (the spec's decision D15, log entry 8). -/
def Obligations.NestedCallsReturn : Prop :=
  (∀ (targets : List Addr12) (s : State), targets ≠ [] → s.sp.val + targets.length ≤ 16 →
    ∃ t, execAll (targets.map .call ++ List.replicate targets.length .ret) s = .next t ∧
      t.pc.toNat = (s.pc.toNat + 2) % 0x1000 ∧ t.sp = s.sp ∧
      (s.sp.val = 0 → exec .ret t = .next { t with mode := .halted ⟨.stackUnderflow, t.pc, some 0x00EE⟩ })) ∧
  (∀ (targets : List Addr12) (nnn : Addr12) (s : State), targets.length = 16 → s.sp.val = 0 →
    ∃ t, execAll (targets.map .call) s = .next t ∧
      exec (.call nnn) t = .next { t with mode := .halted ⟨.stackOverflow, t.pc, some (encode (.call nnn))⟩ })

/-- R120, R124, R125: the skips on a constant. -/
def Obligations.SkipsOnConstant : Prop :=
  ∀ (x : Reg) (nn : Byte) (s : State),
    (∃ t, exec (.seImm x nn) s = .next t ∧ Unchanged [] [] s t ∧
      t.pc.toNat = (if s.readV x = nn then s.pc.toNat + 4 else s.pc.toNat + 2) % 0x1000) ∧
    (∃ t, exec (.sneImm x nn) s = .next t ∧ Unchanged [] [] s t ∧
      t.pc.toNat = (if s.readV x = nn then s.pc.toNat + 2 else s.pc.toNat + 4) % 0x1000)

/-- R120, R126, R127: the skips on two registers. -/
def Obligations.SkipsOnRegisters : Prop :=
  ∀ (x y : Reg) (s : State),
    (∃ t, exec (.seReg x y) s = .next t ∧ Unchanged [] [] s t ∧
      t.pc.toNat = (if s.readV x = s.readV y then s.pc.toNat + 4 else s.pc.toNat + 2) % 0x1000) ∧
    (∃ t, exec (.sneReg x y) s = .next t ∧ Unchanged [] [] s t ∧
      t.pc.toNat = (if s.readV x = s.readV y then s.pc.toNat + 2 else s.pc.toNat + 4) % 0x1000)

/-! ## Registers and ALU -/

/-- R141, R143: the register loads; VF changes only as the destination. -/
def Obligations.LoadsWriteVx : Prop :=
  ∀ (x y : Reg) (nn : Byte) (s : State),
    (∃ t, exec (.ldImm x nn) s = .next t ∧ t.readV x = nn ∧ t.pc.toNat = (s.pc.toNat + 2) % 0x1000 ∧
      Unchanged [] [x] s t) ∧
    (∃ t, exec (.ldReg x y) s = .next t ∧ t.readV x = s.readV y ∧ t.pc.toNat = (s.pc.toNat + 2) % 0x1000 ∧
      Unchanged [] [x] s t)

/-- R142: the sum wraps modulo 256 and no flag is written. -/
def Obligations.AddConstantWrapsWithoutFlag : Prop :=
  ∀ (x : Reg) (nn : Byte) (s : State), ∃ t, exec (.addImm x nn) s = .next t ∧
    (t.readV x).toNat = ((s.readV x).toNat + nn.toNat) % 256 ∧ t.pc.toNat = (s.pc.toNat + 2) % 0x1000 ∧
    Unchanged [] [x] s t

/-- R144, R145, R146: the logic operations bit by bit; VF is not reset. -/
def Obligations.LogicActsBitByBit : Prop :=
  ∀ (x y : Reg) (s : State),
    (∃ t, exec (.orReg x y) s = .next t ∧ t.pc.toNat = (s.pc.toNat + 2) % 0x1000 ∧ Unchanged [] [x] s t ∧
      ∀ k : Fin 8, (t.readV x).getLsbD k.val = ((s.readV x).getLsbD k.val || (s.readV y).getLsbD k.val)) ∧
    (∃ t, exec (.andReg x y) s = .next t ∧ t.pc.toNat = (s.pc.toNat + 2) % 0x1000 ∧ Unchanged [] [x] s t ∧
      ∀ k : Fin 8, (t.readV x).getLsbD k.val = ((s.readV x).getLsbD k.val && (s.readV y).getLsbD k.val)) ∧
    (∃ t, exec (.xorReg x y) s = .next t ∧ t.pc.toNat = (s.pc.toNat + 2) % 0x1000 ∧ Unchanged [] [x] s t ∧
      ∀ k : Fin 8, (t.readV x).getLsbD k.val = ((s.readV x).getLsbD k.val ^^ (s.readV y).getLsbD k.val))

/-- R140, R147 (the spec's decision D10 for VF_ORDER): the wrapped sum and the carry, in the order of VF_ORDER when x
= F. -/
def Obligations.AddWritesSumAndCarry : Prop :=
  ∀ (x y : Reg) (s : State), ∃ t, exec (.addReg x y) s = .next t ∧
    t.pc.toNat = (s.pc.toNat + 2) % 0x1000 ∧ Unchanged [] [x, vf] s t ∧
    (x ≠ vf ∨ s.cfg.vfOrder = .resultLast → (t.readV x).toNat = ((s.readV x).toNat + (s.readV y).toNat) % 256) ∧
    (x ≠ vf ∨ s.cfg.vfOrder = .flagLast →
      (t.readV vf).toNat = if (s.readV x).toNat + (s.readV y).toNat > 255 then 1 else 0)

/-- R140, R148, R150 (the spec's decision D10 for VF_ORDER): the wrapped differences, and VF is NOT borrow. -/
def Obligations.SubtractsWriteDifferenceAndNoBorrow : Prop :=
  ∀ (x y : Reg) (s : State),
    (∃ t, exec (.sub x y) s = .next t ∧ t.pc.toNat = (s.pc.toNat + 2) % 0x1000 ∧ Unchanged [] [x, vf] s t ∧
      (x ≠ vf ∨ s.cfg.vfOrder = .resultLast →
        ((t.readV x).toNat : Int) = ((s.readV x).toNat - (s.readV y).toNat : Int) % 256) ∧
      (x ≠ vf ∨ s.cfg.vfOrder = .flagLast →
        (t.readV vf).toNat = if (s.readV x).toNat ≥ (s.readV y).toNat then 1 else 0)) ∧
    (∃ t, exec (.subn x y) s = .next t ∧ t.pc.toNat = (s.pc.toNat + 2) % 0x1000 ∧ Unchanged [] [x, vf] s t ∧
      (x ≠ vf ∨ s.cfg.vfOrder = .resultLast →
        ((t.readV x).toNat : Int) = ((s.readV y).toNat - (s.readV x).toNat : Int) % 256) ∧
      (x ≠ vf ∨ s.cfg.vfOrder = .flagLast →
        (t.readV vf).toNat = if (s.readV y).toNat ≥ (s.readV x).toNat then 1 else 0))

/-- R140, R149, R151 (the spec's decisions D10, D11): the shifts by one of the value SHIFT_SOURCE names, VF the bit
shifted out. -/
def Obligations.ShiftsWriteResultAndLostBit : Prop :=
  ∀ (x y : Reg) (s : State) (a : Byte),
    a = (if s.cfg.shiftSource = .vx then s.readV x else s.readV y) →
    (∃ t, exec (.shr x y) s = .next t ∧ t.pc.toNat = (s.pc.toNat + 2) % 0x1000 ∧ Unchanged [] [x, vf] s t ∧
      (x ≠ vf ∨ s.cfg.vfOrder = .resultLast → t.readV x = a >>> 1) ∧
      (x ≠ vf ∨ s.cfg.vfOrder = .flagLast → (t.readV vf).toNat = a.toNat % 2)) ∧
    (∃ t, exec (.shl x y) s = .next t ∧ t.pc.toNat = (s.pc.toNat + 2) % 0x1000 ∧ Unchanged [] [x, vf] s t ∧
      (x ≠ vf ∨ s.cfg.vfOrder = .resultLast → t.readV x = a <<< 1) ∧
      (x ≠ vf ∨ s.cfg.vfOrder = .flagLast → (t.readV vf).toNat = a.toNat / 128))

/-- R152: the masked draw, a fresh one each time (log entry 4: the byte is the free value of the counter, which
advances); no bit outside nn can be 1, whatever the draw. -/
def Obligations.RandomIsMaskedDraw : Prop :=
  ∀ (x : Reg) (nn : Byte) (s : State), ∃ t, exec (.rnd x nn) s = .next t ∧
    t.readV x = Config.freeByte s.draws &&& nn ∧ t.draws = s.draws + 1 ∧ t.readV x &&& ~~~nn = 0 ∧
    t.pc.toNat = (s.pc.toNat + 2) % 0x1000 ∧ Unchanged [.draws] [x] s t

/-! ## Index register and memory -/

/-- R171, R173: I loaded with nnn, and pointed at the glyph of Vx, which is not masked. -/
def Obligations.IndexLoadedAndPointed : Prop :=
  ∀ (x : Reg) (nnn : Addr12) (s : State),
    (∃ t, exec (.ldI nnn) s = .next t ∧ t.i.toNat = nnn.toNat ∧ t.pc.toNat = (s.pc.toNat + 2) % 0x1000 ∧
      Unchanged [.index] [] s t) ∧
    (∃ t, exec (.ldFVx x) s = .next t ∧ t.i.toNat = 0x050 + (s.readV x).toNat * 5 ∧
      t.pc.toNat = (s.pc.toNat + 2) % 0x1000 ∧ Unchanged [.index] [] s t)

/-- R172 (the spec's decision D8 for INDEX_ADD_WRAP): the wrapped sum; VF is unchanged. -/
def Obligations.IndexSumWraps : Prop :=
  ∀ (x : Reg) (s : State), ∃ t, exec (.addIVx x) s = .next t ∧
    t.i.toNat = (s.i.toNat + (s.readV x).toNat) % (if s.cfg.indexAddWrap = .mod65536 then 0x10000 else 0x1000) ∧
    t.pc.toNat = (s.pc.toNat + 2) % 0x1000 ∧ Unchanged [.index] [] s t

/-- R174 (HALTED by the spec's decisions D6, D15): the three decimal digits at I, I+1 and I+2, or the fault with no
byte written. -/
def Obligations.DecimalDigitsStored : Prop :=
  ∀ (x : Reg) (s : State),
    (s.i.toNat + 2 ≤ 0xFFF → ∃ t, exec (.ldBVx x) s = .next t ∧
      (t.loadByte s.i.toNat).toNat = (s.readV x).toNat / 100 ∧
      (t.loadByte (s.i.toNat + 1)).toNat = (s.readV x).toNat / 10 % 10 ∧
      (t.loadByte (s.i.toNat + 2)).toNat = (s.readV x).toNat % 10 ∧
      (∀ a, ¬(s.i.toNat ≤ a ∧ a ≤ s.i.toNat + 2) → t.loadByte a = s.loadByte a) ∧
      t.pc.toNat = (s.pc.toNat + 2) % 0x1000 ∧ Unchanged [.memory] [] s t) ∧
    (0xFFF < s.i.toNat + 2 → exec (.ldBVx x) s =
      .next { s with mode := .halted ⟨.addressOutOfRange (max s.i.toNat 0x1000), s.pc, some (encode (.ldBVx x))⟩ })

/-- R175 (HALTED by the spec's decisions D6, D15): V0..Vx at I on, I unchanged, or the fault with no byte written. -/
def Obligations.RegistersStored : Prop :=
  ∀ (x : Reg) (s : State),
    (s.i.toNat + x.val ≤ 0xFFF → ∃ t, exec (.ldMemVx x) s = .next t ∧
      (∀ r : Reg, r ≤ x → t.loadByte (s.i.toNat + r.val) = s.readV r) ∧
      (∀ a, ¬(s.i.toNat ≤ a ∧ a ≤ s.i.toNat + x.val) → t.loadByte a = s.loadByte a) ∧
      t.pc.toNat = (s.pc.toNat + 2) % 0x1000 ∧ Unchanged [.memory] [] s t) ∧
    (0xFFF < s.i.toNat + x.val → exec (.ldMemVx x) s =
      .next { s with mode := .halted ⟨.addressOutOfRange (max s.i.toNat 0x1000), s.pc, some (encode (.ldMemVx x))⟩ })

/-- R176 (HALTED by the spec's decisions D6, D15): V0..Vx from I on, the other registers and I unchanged, or the fault
with no register written. -/
def Obligations.RegistersLoaded : Prop :=
  ∀ (x : Reg) (s : State),
    (s.i.toNat + x.val ≤ 0xFFF → ∃ t, exec (.ldVxMem x) s = .next t ∧
      (∀ r : Reg, r ≤ x → t.readV r = s.loadByte (s.i.toNat + r.val)) ∧
      (∀ r : Reg, x < r → t.readV r = s.readV r) ∧
      t.pc.toNat = (s.pc.toNat + 2) % 0x1000 ∧ ∀ p : Part, p.same s t) ∧
    (0xFFF < s.i.toNat + x.val → exec (.ldVxMem x) s =
      .next { s with mode := .halted ⟨.addressOutOfRange (max s.i.toNat 0x1000), s.pc, some (encode (.ldVxMem x))⟩ })

/-- R177 (its conditions are the spec's derivation): a store of V0..Vx and a load from the same address reproduce the
registers, whatever happened to the registers and anything but memory and I in between. -/
def Obligations.StoreThenLoadReproduces : Prop :=
  ∀ (x : Reg) (s t u w : State), s.i.toNat + x.val ≤ 0xFFF → exec (.ldMemVx x) s = .next t →
    (∀ a, u.loadByte a = t.loadByte a) → u.i = t.i → exec (.ldVxMem x) u = .next w →
    ∀ r : Reg, r ≤ x → w.readV r = s.readV r

/-- R57: a byte reads as the value last written to it, and every other byte as before; the canonical form is kept. -/
def Obligations.ByteReadsAsLastWritten : Prop :=
  ∀ (s : State) (a : Nat) (b : Byte),
    (s.storeByte a b).loadByte a = b ∧ (∀ c, c ≠ a → (s.storeByte a b).loadByte c = s.loadByte c) ∧
    (a < 0x1000 → Memory.wf s.cfg.font s.mem = true → Memory.wf s.cfg.font (s.storeByte a b).mem = true)

/-! ## Keypad and timers -/

/-- R190, R191, R192 (the spec's decision D12 for KEY_INDEX, D15 for HALTED): the skips on a key; a key number above
15 faults, or is reduced to its low nibble, by KEY_INDEX. -/
def Obligations.SkipsOnKey : Prop :=
  ∀ (x : Reg) (s : State),
    (∀ k : Fin 16, (s.readV x).toNat = k.val ∨ (s.cfg.keyIndex = .lowNibble ∧ (s.readV x).toNat % 16 = k.val) →
      (∃ t, exec (.skp x) s = .next t ∧ Unchanged [] [] s t ∧
        t.pc.toNat = (if s.keyPressed k = true then s.pc.toNat + 4 else s.pc.toNat + 2) % 0x1000) ∧
      (∃ t, exec (.sknp x) s = .next t ∧ Unchanged [] [] s t ∧
        t.pc.toNat = (if s.keyPressed k = true then s.pc.toNat + 2 else s.pc.toNat + 4) % 0x1000)) ∧
    (15 < (s.readV x).toNat → s.cfg.keyIndex = .fault →
      exec (.skp x) s =
        .next { s with mode := .halted ⟨.keyIndexOutOfRange (s.readV x), s.pc, some (encode (.skp x))⟩ } ∧
      exec (.sknp x) s =
        .next { s with mode := .halted ⟨.keyIndexOutOfRange (s.readV x), s.pc, some (encode (.sknp x))⟩ })

/-- R193, R196, R197: the delay timer read, and the two timers written. -/
def Obligations.TimersReadAndWritten : Prop :=
  ∀ (x : Reg) (s : State),
    (∃ t, exec (.ldVxDt x) s = .next t ∧ t.readV x = s.dt ∧ t.pc.toNat = (s.pc.toNat + 2) % 0x1000 ∧
      Unchanged [] [x] s t) ∧
    (∃ t, exec (.ldDtVx x) s = .next t ∧ t.dt = s.readV x ∧ t.pc.toNat = (s.pc.toNat + 2) % 0x1000 ∧
      Unchanged [.delayTimer] [] s t) ∧
    (∃ t, exec (.ldStVx x) s = .next t ∧ t.st = s.readV x ∧ t.pc.toNat = (s.pc.toNat + 2) % 0x1000 ∧
      Unchanged [.soundTimer] [] s t)

/-- R194 (the baseline is the spec's decision D13): Fx0A enters the wait with the keypad as the baseline and PC at its
own address; no register is written. -/
def Obligations.KeyWaitEntered : Prop :=
  ∀ (x : Reg) (s : State), ∃ t, exec (.ldVxK x) s = .next t ∧
    t.mode = .awaitingKey x s.keys ∧ t.pc.toNat = s.pc.toNat % 0x1000 ∧ Unchanged [.mode] [] s t

/-- R195 (the spec's decision D13): a poll with no new press keeps waiting with the keypad as the new baseline;
otherwise the lowest new press goes into Vx, PC advances and the mode is RUNNING. -/
def Obligations.KeyPollTakesLowestNewPress : Prop :=
  ∀ (x : Reg) (b : Keys) (s : State), s.mode = .awaitingKey x b →
    ((∀ k : Fin 16, s.keyPressed k = true → b.getLsbD k.val = true) →
      instrTick s = .next { s with mode := .awaitingKey x s.keys }) ∧
    (∀ k : Fin 16, s.keyPressed k = true → b.getLsbD k.val = false →
      (∀ j : Fin 16, j < k → s.keyPressed j = true → b.getLsbD j.val = true) →
      ∃ t, instrTick s = .next t ∧ (t.readV x).toNat = k.val ∧ t.pc.toNat = (s.pc.toNat + 2) % 0x1000 ∧
        t.mode = .running ∧ Unchanged [.mode] [x] s t)

/-- R225: a timer tick takes 1 off each timer that is not 0, and changes nothing else; that it does so in every mode is
R227 by the spec's decision D19. -/
def Obligations.TimerTickCountsDown : Prop :=
  ∀ s : State, ∃ t, applyEvent .timerTick s = .next t ∧ t.dt.toNat = s.dt.toNat - 1 ∧ t.st.toNat = s.st.toNat - 1 ∧
    t.pc = s.pc ∧ Unchanged [.delayTimer, .soundTimer] [] s t

/-- R225: n timer ticks take n off a timer and leave it at 0 where it is less than n (60 ticks take 30 to 0); that they
do so in every mode is R227 by the spec's decision D19. -/
def Obligations.TimerTicksReachZero : Prop :=
  ∀ (s : State) (n : Nat), ∃ t, applyEvents (List.replicate n .timerTick) s = .next t ∧
    t.dt.toNat = s.dt.toNat - n ∧ t.st.toNat = s.st.toNat - n

/-- R227, R231 (the spec's decisions D15, D18, D19): under a fair schedule of ticks and key writes, a halted machine's
timers both reach 0, and it stays halted. -/
def Obligations.FairScheduleEmptiesTimers : Prop :=
  ∀ (events : Nat → Event) (s : State) (f : FaultRecord), Fair events → s.mode = .halted f →
    (∀ n, events n = .instrTick ∨ events n = .timerTick ∨ ∃ k, events n = .setKeys k) →
    ∃ (n : Nat) (t : State), applyEvents ((List.range n).map events) s = .next t ∧ t.dt = 0 ∧ t.st = 0 ∧
      t.mode = .halted f

/-! ## Reset, load, scheduler and ports -/

/-- R39, R250 (the spec's decisions D2, D3, D21): reset gives every element of the state its construction value, under
every configuration. -/
def Obligations.ResetGivesConstructionValues : Prop :=
  ∀ s : State, ∃ t, applyEvent .reset s = .next t ∧ t.pc = 0x200 ∧ t.sp = 0 ∧ t.mode = .running ∧
    (∀ k : Fin 16, t.keyPressed k = false) ∧ (∀ px py, Frame.pixel t.fb px py = false) ∧
    (∀ (k : Fin 80), t.loadByte (0x050 + k.val) = s.cfg.font[k.val]) ∧
    (∀ a : Nat, a < 0x050 ∨ 0x0A0 ≤ a → t.loadByte a = 0) ∧
    (s.cfg.resetValues = .zero → t.i = 0 ∧ t.dt = 0 ∧ t.st = 0 ∧ (∀ r, t.readV r = 0) ∧
      ∀ k : Fin 16, t.stack[k.val] = 0) ∧
    (∀ d, s.cfg.resetValues = .draw d → t.i = d.i ∧ t.dt = d.dt ∧ t.st = d.st ∧ t.v = d.v ∧ t.stack = d.stack)

/-- R251, R252 (the spec's decision D20): a load of at most 3584 bytes copies them to 0x200 on and sets PC; a longer
one changes nothing but the result it returns (log entry 7). -/
def Obligations.LoadCopiesOrRejects : Prop :=
  ∀ (bytes : List Byte) (s : State),
    (bytes.length ≤ 3584 → ∃ t, applyEvent (.load bytes) s = .next t ∧ t.pc = 0x200 ∧
      (∀ (k : Nat) (h : k < bytes.length), t.loadByte (0x200 + k) = bytes[k]) ∧
      (∀ a, ¬(0x200 ≤ a ∧ a < 0x200 + bytes.length) → t.loadByte a = s.loadByte a) ∧
      t.loadResults = s.loadResults ++ [.loaded] ∧ Unchanged [.memory, .loadResults] [] s t) ∧
    (3584 < bytes.length → applyEvent (.load bytes) s =
      .next { s with loadResults := s.loadResults ++ [.rejected (.programTooLarge bytes.length)] })

/-- R33, R239: the key port writes the 16 keys and nothing else. -/
def Obligations.KeyPortWritesKeypad : Prop :=
  ∀ (k : Keys) (s : State), ∃ t, applyEvent (.setKeys k) s = .next t ∧
    (∀ j : Fin 16, t.keyPressed j = k.getLsbD j.val) ∧ t.pc = s.pc ∧ Unchanged [.keypad] [] s t

/-- R236, R238, R240 (the spec's decisions D1, D29): the outputs as functions of the state. -/
def Obligations.PortsShowState : Prop :=
  ∀ s : State,
    (∀ (px : Fin 64) (py : Fin 32) (k : Fin 2048), k.val = py.val * 64 + px.val → fbPort s k = Frame.pixel s.fb px py) ∧
    stPort s = s.st ∧ (soundPort s = true ↔ s.st.toNat ≠ 0) ∧ statusPort s = s.mode ∧ reportPort s = s.reports

/-- R230 (the spec's decision D18, log entry 16): an iteration of the reference scheduler issues the instruction
ticks, then the timer ticks, that bring each accumulator below its period, and takes exactly their periods off it. -/
def Obligations.SchedulerDrainsAccumulators : Prop :=
  ∀ (c : Scheduler) (dt : Rat), 0 < c.cpuHz → 0 ≤ c.accCpu → 0 ≤ c.accTimer → 0 ≤ dt →
    ∃ n m : Nat, ∃ d : Scheduler,
      c.iteration dt = (List.replicate n .instrTick ++ List.replicate m .timerTick, d) ∧
      d.cpuHz = c.cpuHz ∧
      c.accCpu + dt = d.accCpu + n * (1 / c.cpuHz) ∧ 0 ≤ d.accCpu ∧ d.accCpu < 1 / c.cpuHz ∧
      c.accTimer + dt = d.accTimer + m * (1 / 60) ∧ 0 ≤ d.accTimer ∧ d.accTimer < 1 / 60

/-- R230 (the spec's decision D18, log entry 16): from the start state, with both accumulators 0, a run of iterations
issues as many instruction ticks as whole periods of CPU_HZ lie in the time elapsed, and as many timer ticks as whole
sixtieths of a second, however that time is cut into iterations; the accumulators hold what is left over. -/
def Obligations.SchedulerCountsTicksFromStart : Prop :=
  ∀ (cpuHz : Rat) (dts : List Rat), 0 < cpuHz → (∀ dt ∈ dts, 0 ≤ dt) →
    (((Scheduler.start cpuHz).run dts).1.count .instrTick : Int) = ⌊dts.sum * cpuHz⌋ ∧
    (((Scheduler.start cpuHz).run dts).1.count .timerTick : Int) = ⌊dts.sum * 60⌋ ∧
    (∀ e ∈ ((Scheduler.start cpuHz).run dts).1, e = .instrTick ∨ e = .timerTick) ∧
    ((Scheduler.start cpuHz).run dts).2 =
      ⟨cpuHz, dts.sum - ⌊dts.sum * cpuHz⌋ / cpuHz, dts.sum - ⌊dts.sum * 60⌋ / 60⟩
end

