-- ==== Sys2Proof/Laws/Decode.lean ====
section
/-! SUPPORT. The fields of a word and the words of the formats as numbers, so that facts about encodings are linear
arithmetic. -/

namespace Sys2Proof

theorem opOf_eq (w : Word) : opOf w = w.toNat / 4096 := by
  have := w.isLt
  simp only [opOf, BitVec.extractLsb'_toNat, Nat.shiftRight_eq_div_pow]
  omega

theorem xOf_eq (w : Word) : (xOf w).val = w.toNat / 256 % 16 := by
  show (w.extractLsb' 8 4).toNat = _
  simp only [BitVec.extractLsb'_toNat, Nat.shiftRight_eq_div_pow]

theorem yOf_eq (w : Word) : (yOf w).val = w.toNat / 16 % 16 := by
  show (w.extractLsb' 4 4).toNat = _
  simp only [BitVec.extractLsb'_toNat, Nat.shiftRight_eq_div_pow]

theorem nOf_eq (w : Word) : (nOf w).val = w.toNat % 16 := by
  show (w.extractLsb' 0 4).toNat = _
  simp only [BitVec.extractLsb'_toNat, Nat.shiftRight_zero]

theorem nnOf_eq (w : Word) : (nnOf w).toNat = w.toNat % 256 := by
  simp only [nnOf, BitVec.extractLsb'_toNat, Nat.shiftRight_zero]

theorem nnnOf_eq (w : Word) : (nnnOf w).toNat = w.toNat % 4096 := by
  simp only [nnnOf, BitVec.extractLsb'_toNat, Nat.shiftRight_zero]

theorem append_toNat {m n : Nat} (a : BitVec m) (b : BitVec n) : (a ++ b).toNat = a.toNat * 2 ^ n + b.toNat := by
  rw [BitVec.toNat_append, Nat.shiftLeft_eq, Nat.mul_comm, Nat.two_pow_add_eq_or_of_lt b.isLt]

@[simp] theorem nib_toNat (k : Fin 16) : (nib k).toNat = k.val := rfl

theorem encNNN_toNat (op : BitVec 4) (nnn : Addr12) : (encNNN op nnn).toNat = op.toNat * 4096 + nnn.toNat :=
  append_toNat op nnn

theorem encXNN_toNat (op : BitVec 4) (x : Reg) (nn : Byte) :
    (encXNN op x nn).toNat = op.toNat * 4096 + x.val * 256 + nn.toNat := by
  rw [encXNN, append_toNat, append_toNat, nib_toNat]; omega

theorem encXYN_toNat (op : BitVec 4) (x y : Reg) (n : BitVec 4) :
    (encXYN op x y n).toNat = op.toNat * 4096 + x.val * 256 + y.val * 16 + n.toNat := by
  rw [encXYN, append_toNat, append_toNat, append_toNat, nib_toNat, nib_toNat]; omega

theorem encX_toNat (op : BitVec 4) (x : Reg) (sub : Byte) :
    (encX op x sub).toNat = op.toNat * 4096 + x.val * 256 + sub.toNat := by
  rw [encX, append_toNat, append_toNat, nib_toNat]; omega

/-! The fields of each format's word. -/

@[simp] theorem opOf_encNNN (op : BitVec 4) (nnn : Addr12) : opOf (encNNN op nnn) = op.toNat := by
  have := nnn.isLt
  rw [opOf_eq, encNNN_toNat]; omega

@[simp] theorem nnnOf_encNNN (op : BitVec 4) (nnn : Addr12) : nnnOf (encNNN op nnn) = nnn := by
  have := nnn.isLt
  apply BitVec.eq_of_toNat_eq
  rw [nnnOf_eq, encNNN_toNat]; omega

@[simp] theorem opOf_encXNN (op : BitVec 4) (x : Reg) (nn : Byte) : opOf (encXNN op x nn) = op.toNat := by
  have := nn.isLt
  rw [opOf_eq, encXNN_toNat]; omega

@[simp] theorem xOf_encXNN (op : BitVec 4) (x : Reg) (nn : Byte) : xOf (encXNN op x nn) = x := by
  have := nn.isLt
  apply Fin.ext
  rw [xOf_eq, encXNN_toNat]; omega

@[simp] theorem nnOf_encXNN (op : BitVec 4) (x : Reg) (nn : Byte) : nnOf (encXNN op x nn) = nn := by
  have := nn.isLt
  apply BitVec.eq_of_toNat_eq
  rw [nnOf_eq, encXNN_toNat]; omega

@[simp] theorem opOf_encXYN (op : BitVec 4) (x y : Reg) (n : BitVec 4) : opOf (encXYN op x y n) = op.toNat := by
  have := n.isLt
  rw [opOf_eq, encXYN_toNat]; omega

@[simp] theorem xOf_encXYN (op : BitVec 4) (x y : Reg) (n : BitVec 4) : xOf (encXYN op x y n) = x := by
  have := n.isLt
  apply Fin.ext
  rw [xOf_eq, encXYN_toNat]; omega

@[simp] theorem yOf_encXYN (op : BitVec 4) (x y : Reg) (n : BitVec 4) : yOf (encXYN op x y n) = y := by
  have := n.isLt
  apply Fin.ext
  rw [yOf_eq, encXYN_toNat]; omega

@[simp] theorem nOf_encXYN (op : BitVec 4) (x y : Reg) (n : BitVec 4) : (nOf (encXYN op x y n)).val = n.toNat := by
  have := n.isLt
  rw [nOf_eq, encXYN_toNat]; omega

@[simp] theorem opOf_encX (op : BitVec 4) (x : Reg) (sub : Byte) : opOf (encX op x sub) = op.toNat := by
  have := sub.isLt
  rw [opOf_eq, encX_toNat]; omega

@[simp] theorem xOf_encX (op : BitVec 4) (x : Reg) (sub : Byte) : xOf (encX op x sub) = x := by
  have := sub.isLt
  apply Fin.ext
  rw [xOf_eq, encX_toNat]; omega

@[simp] theorem nnOf_encX (op : BitVec 4) (x : Reg) (sub : Byte) : nnOf (encX op x sub) = sub := by
  have := sub.isLt
  apply BitVec.eq_of_toNat_eq
  rw [nnOf_eq, encX_toNat]; omega

end Sys2Proof
end

