-- ==== Sys2Proof/Laws/State.lean ====
section
/-! SUPPORT. One lemma for each field of State under each update, so that no later proof unfolds a record update. -/

namespace Sys2Proof.Machine

variable (s : State)

/-! ## storeByte -/

@[simp] theorem storeByte_v (a : Nat) (b : Byte) : (s.storeByte a b).v = s.v := rfl
@[simp] theorem storeByte_i (a : Nat) (b : Byte) : (s.storeByte a b).i = s.i := rfl
@[simp] theorem storeByte_pc (a : Nat) (b : Byte) : (s.storeByte a b).pc = s.pc := rfl
@[simp] theorem storeByte_stack (a : Nat) (b : Byte) : (s.storeByte a b).stack = s.stack := rfl
@[simp] theorem storeByte_sp (a : Nat) (b : Byte) : (s.storeByte a b).sp = s.sp := rfl
@[simp] theorem storeByte_dt (a : Nat) (b : Byte) : (s.storeByte a b).dt = s.dt := rfl
@[simp] theorem storeByte_st (a : Nat) (b : Byte) : (s.storeByte a b).st = s.st := rfl
@[simp] theorem storeByte_mem (a : Nat) (b : Byte) : (s.storeByte a b).mem = Memory.write s.cfg.font s.mem a b := rfl
@[simp] theorem storeByte_fb (a : Nat) (b : Byte) : (s.storeByte a b).fb = s.fb := rfl
@[simp] theorem storeByte_keys (a : Nat) (b : Byte) : (s.storeByte a b).keys = s.keys := rfl
@[simp] theorem storeByte_mode (a : Nat) (b : Byte) : (s.storeByte a b).mode = s.mode := rfl
@[simp] theorem storeByte_cfg (a : Nat) (b : Byte) : (s.storeByte a b).cfg = s.cfg := rfl
@[simp] theorem storeByte_draws (a : Nat) (b : Byte) : (s.storeByte a b).draws = s.draws := rfl
@[simp] theorem storeByte_reports (a : Nat) (b : Byte) : (s.storeByte a b).reports = s.reports := rfl
@[simp] theorem storeByte_loadResults (a : Nat) (b : Byte) : (s.storeByte a b).loadResults = s.loadResults := rfl
@[simp] theorem storeByte_schedule (a : Nat) (b : Byte) : (s.storeByte a b).schedule = s.schedule := rfl
@[simp] theorem storeByte_readV (a : Nat) (b : Byte) (r : Reg) : (s.storeByte a b).readV r = s.readV r := rfl
@[simp] theorem storeByte_keyPressed (a : Nat) (b : Byte) (k : Fin 16) : (s.storeByte a b).keyPressed k = s.keyPressed k := rfl

/-! ## writeV -/

@[simp] theorem writeV_v (x : Reg) (b : Byte) : (s.writeV x b).v = s.v.set x.val b := rfl
@[simp] theorem writeV_i (x : Reg) (b : Byte) : (s.writeV x b).i = s.i := rfl
@[simp] theorem writeV_pc (x : Reg) (b : Byte) : (s.writeV x b).pc = s.pc := rfl
@[simp] theorem writeV_stack (x : Reg) (b : Byte) : (s.writeV x b).stack = s.stack := rfl
@[simp] theorem writeV_sp (x : Reg) (b : Byte) : (s.writeV x b).sp = s.sp := rfl
@[simp] theorem writeV_dt (x : Reg) (b : Byte) : (s.writeV x b).dt = s.dt := rfl
@[simp] theorem writeV_st (x : Reg) (b : Byte) : (s.writeV x b).st = s.st := rfl
@[simp] theorem writeV_mem (x : Reg) (b : Byte) : (s.writeV x b).mem = s.mem := rfl
@[simp] theorem writeV_fb (x : Reg) (b : Byte) : (s.writeV x b).fb = s.fb := rfl
@[simp] theorem writeV_keys (x : Reg) (b : Byte) : (s.writeV x b).keys = s.keys := rfl
@[simp] theorem writeV_mode (x : Reg) (b : Byte) : (s.writeV x b).mode = s.mode := rfl
@[simp] theorem writeV_cfg (x : Reg) (b : Byte) : (s.writeV x b).cfg = s.cfg := rfl
@[simp] theorem writeV_draws (x : Reg) (b : Byte) : (s.writeV x b).draws = s.draws := rfl
@[simp] theorem writeV_reports (x : Reg) (b : Byte) : (s.writeV x b).reports = s.reports := rfl
@[simp] theorem writeV_loadResults (x : Reg) (b : Byte) : (s.writeV x b).loadResults = s.loadResults := rfl
@[simp] theorem writeV_schedule (x : Reg) (b : Byte) : (s.writeV x b).schedule = s.schedule := rfl
@[simp] theorem writeV_loadByte (x : Reg) (b : Byte) (k : Nat) : (s.writeV x b).loadByte k = s.loadByte k := rfl
@[simp] theorem writeV_keyPressed (x : Reg) (b : Byte) (k : Fin 16) : (s.writeV x b).keyPressed k = s.keyPressed k := rfl

/-! ## setI -/

@[simp] theorem setI_v (w : Word) : (s.setI w).v = s.v := rfl
@[simp] theorem setI_i (w : Word) : (s.setI w).i = w := rfl
@[simp] theorem setI_pc (w : Word) : (s.setI w).pc = s.pc := rfl
@[simp] theorem setI_stack (w : Word) : (s.setI w).stack = s.stack := rfl
@[simp] theorem setI_sp (w : Word) : (s.setI w).sp = s.sp := rfl
@[simp] theorem setI_dt (w : Word) : (s.setI w).dt = s.dt := rfl
@[simp] theorem setI_st (w : Word) : (s.setI w).st = s.st := rfl
@[simp] theorem setI_mem (w : Word) : (s.setI w).mem = s.mem := rfl
@[simp] theorem setI_fb (w : Word) : (s.setI w).fb = s.fb := rfl
@[simp] theorem setI_keys (w : Word) : (s.setI w).keys = s.keys := rfl
@[simp] theorem setI_mode (w : Word) : (s.setI w).mode = s.mode := rfl
@[simp] theorem setI_cfg (w : Word) : (s.setI w).cfg = s.cfg := rfl
@[simp] theorem setI_draws (w : Word) : (s.setI w).draws = s.draws := rfl
@[simp] theorem setI_reports (w : Word) : (s.setI w).reports = s.reports := rfl
@[simp] theorem setI_loadResults (w : Word) : (s.setI w).loadResults = s.loadResults := rfl
@[simp] theorem setI_schedule (w : Word) : (s.setI w).schedule = s.schedule := rfl
@[simp] theorem setI_readV (w : Word) (r : Reg) : (s.setI w).readV r = s.readV r := rfl
@[simp] theorem setI_loadByte (w : Word) (k : Nat) : (s.setI w).loadByte k = s.loadByte k := rfl
@[simp] theorem setI_keyPressed (w : Word) (k : Fin 16) : (s.setI w).keyPressed k = s.keyPressed k := rfl

/-! ## setDt -/

@[simp] theorem setDt_v (b : Byte) : (s.setDt b).v = s.v := rfl
@[simp] theorem setDt_i (b : Byte) : (s.setDt b).i = s.i := rfl
@[simp] theorem setDt_pc (b : Byte) : (s.setDt b).pc = s.pc := rfl
@[simp] theorem setDt_stack (b : Byte) : (s.setDt b).stack = s.stack := rfl
@[simp] theorem setDt_sp (b : Byte) : (s.setDt b).sp = s.sp := rfl
@[simp] theorem setDt_dt (b : Byte) : (s.setDt b).dt = b := rfl
@[simp] theorem setDt_st (b : Byte) : (s.setDt b).st = s.st := rfl
@[simp] theorem setDt_mem (b : Byte) : (s.setDt b).mem = s.mem := rfl
@[simp] theorem setDt_fb (b : Byte) : (s.setDt b).fb = s.fb := rfl
@[simp] theorem setDt_keys (b : Byte) : (s.setDt b).keys = s.keys := rfl
@[simp] theorem setDt_mode (b : Byte) : (s.setDt b).mode = s.mode := rfl
@[simp] theorem setDt_cfg (b : Byte) : (s.setDt b).cfg = s.cfg := rfl
@[simp] theorem setDt_draws (b : Byte) : (s.setDt b).draws = s.draws := rfl
@[simp] theorem setDt_reports (b : Byte) : (s.setDt b).reports = s.reports := rfl
@[simp] theorem setDt_loadResults (b : Byte) : (s.setDt b).loadResults = s.loadResults := rfl
@[simp] theorem setDt_schedule (b : Byte) : (s.setDt b).schedule = s.schedule := rfl
@[simp] theorem setDt_readV (b : Byte) (r : Reg) : (s.setDt b).readV r = s.readV r := rfl
@[simp] theorem setDt_loadByte (b : Byte) (k : Nat) : (s.setDt b).loadByte k = s.loadByte k := rfl
@[simp] theorem setDt_keyPressed (b : Byte) (k : Fin 16) : (s.setDt b).keyPressed k = s.keyPressed k := rfl

/-! ## setSt -/

@[simp] theorem setSt_v (b : Byte) : (s.setSt b).v = s.v := rfl
@[simp] theorem setSt_i (b : Byte) : (s.setSt b).i = s.i := rfl
@[simp] theorem setSt_pc (b : Byte) : (s.setSt b).pc = s.pc := rfl
@[simp] theorem setSt_stack (b : Byte) : (s.setSt b).stack = s.stack := rfl
@[simp] theorem setSt_sp (b : Byte) : (s.setSt b).sp = s.sp := rfl
@[simp] theorem setSt_dt (b : Byte) : (s.setSt b).dt = s.dt := rfl
@[simp] theorem setSt_st (b : Byte) : (s.setSt b).st = b := rfl
@[simp] theorem setSt_mem (b : Byte) : (s.setSt b).mem = s.mem := rfl
@[simp] theorem setSt_fb (b : Byte) : (s.setSt b).fb = s.fb := rfl
@[simp] theorem setSt_keys (b : Byte) : (s.setSt b).keys = s.keys := rfl
@[simp] theorem setSt_mode (b : Byte) : (s.setSt b).mode = s.mode := rfl
@[simp] theorem setSt_cfg (b : Byte) : (s.setSt b).cfg = s.cfg := rfl
@[simp] theorem setSt_draws (b : Byte) : (s.setSt b).draws = s.draws := rfl
@[simp] theorem setSt_reports (b : Byte) : (s.setSt b).reports = s.reports := rfl
@[simp] theorem setSt_loadResults (b : Byte) : (s.setSt b).loadResults = s.loadResults := rfl
@[simp] theorem setSt_schedule (b : Byte) : (s.setSt b).schedule = s.schedule := rfl
@[simp] theorem setSt_readV (b : Byte) (r : Reg) : (s.setSt b).readV r = s.readV r := rfl
@[simp] theorem setSt_loadByte (b : Byte) (k : Nat) : (s.setSt b).loadByte k = s.loadByte k := rfl
@[simp] theorem setSt_keyPressed (b : Byte) (k : Fin 16) : (s.setSt b).keyPressed k = s.keyPressed k := rfl

/-! ## setMode -/

@[simp] theorem setMode_v (m : Mode) : (s.setMode m).v = s.v := rfl
@[simp] theorem setMode_i (m : Mode) : (s.setMode m).i = s.i := rfl
@[simp] theorem setMode_pc (m : Mode) : (s.setMode m).pc = s.pc := rfl
@[simp] theorem setMode_stack (m : Mode) : (s.setMode m).stack = s.stack := rfl
@[simp] theorem setMode_sp (m : Mode) : (s.setMode m).sp = s.sp := rfl
@[simp] theorem setMode_dt (m : Mode) : (s.setMode m).dt = s.dt := rfl
@[simp] theorem setMode_st (m : Mode) : (s.setMode m).st = s.st := rfl
@[simp] theorem setMode_mem (m : Mode) : (s.setMode m).mem = s.mem := rfl
@[simp] theorem setMode_fb (m : Mode) : (s.setMode m).fb = s.fb := rfl
@[simp] theorem setMode_keys (m : Mode) : (s.setMode m).keys = s.keys := rfl
@[simp] theorem setMode_mode (m : Mode) : (s.setMode m).mode = m := rfl
@[simp] theorem setMode_cfg (m : Mode) : (s.setMode m).cfg = s.cfg := rfl
@[simp] theorem setMode_draws (m : Mode) : (s.setMode m).draws = s.draws := rfl
@[simp] theorem setMode_reports (m : Mode) : (s.setMode m).reports = s.reports := rfl
@[simp] theorem setMode_loadResults (m : Mode) : (s.setMode m).loadResults = s.loadResults := rfl
@[simp] theorem setMode_schedule (m : Mode) : (s.setMode m).schedule = s.schedule := rfl
@[simp] theorem setMode_readV (m : Mode) (r : Reg) : (s.setMode m).readV r = s.readV r := rfl
@[simp] theorem setMode_loadByte (m : Mode) (k : Nat) : (s.setMode m).loadByte k = s.loadByte k := rfl
@[simp] theorem setMode_keyPressed (m : Mode) (k : Fin 16) : (s.setMode m).keyPressed k = s.keyPressed k := rfl

/-! ## setPc -/

@[simp] theorem setPc_v (n : Nat) : (s.setPc n).v = s.v := rfl
@[simp] theorem setPc_i (n : Nat) : (s.setPc n).i = s.i := rfl
@[simp] theorem setPc_pc (n : Nat) : (s.setPc n).pc = pcValue n := rfl
@[simp] theorem setPc_stack (n : Nat) : (s.setPc n).stack = s.stack := rfl
@[simp] theorem setPc_sp (n : Nat) : (s.setPc n).sp = s.sp := rfl
@[simp] theorem setPc_dt (n : Nat) : (s.setPc n).dt = s.dt := rfl
@[simp] theorem setPc_st (n : Nat) : (s.setPc n).st = s.st := rfl
@[simp] theorem setPc_mem (n : Nat) : (s.setPc n).mem = s.mem := rfl
@[simp] theorem setPc_fb (n : Nat) : (s.setPc n).fb = s.fb := rfl
@[simp] theorem setPc_keys (n : Nat) : (s.setPc n).keys = s.keys := rfl
@[simp] theorem setPc_mode (n : Nat) : (s.setPc n).mode = s.mode := rfl
@[simp] theorem setPc_cfg (n : Nat) : (s.setPc n).cfg = s.cfg := rfl
@[simp] theorem setPc_draws (n : Nat) : (s.setPc n).draws = s.draws := rfl
@[simp] theorem setPc_reports (n : Nat) : (s.setPc n).reports = s.reports := rfl
@[simp] theorem setPc_loadResults (n : Nat) : (s.setPc n).loadResults = s.loadResults := rfl
@[simp] theorem setPc_schedule (n : Nat) : (s.setPc n).schedule = s.schedule := rfl
@[simp] theorem setPc_readV (n : Nat) (r : Reg) : (s.setPc n).readV r = s.readV r := rfl
@[simp] theorem setPc_loadByte (n : Nat) (k : Nat) : (s.setPc n).loadByte k = s.loadByte k := rfl
@[simp] theorem setPc_keyPressed (n : Nat) (k : Fin 16) : (s.setPc n).keyPressed k = s.keyPressed k := rfl

/-! ## advance -/

@[simp] theorem advance_v : (s.advance).v = s.v := rfl
@[simp] theorem advance_i : (s.advance).i = s.i := rfl
@[simp] theorem advance_pc : (s.advance).pc = pcValue (s.pc.toNat + 2) := rfl
@[simp] theorem advance_stack : (s.advance).stack = s.stack := rfl
@[simp] theorem advance_sp : (s.advance).sp = s.sp := rfl
@[simp] theorem advance_dt : (s.advance).dt = s.dt := rfl
@[simp] theorem advance_st : (s.advance).st = s.st := rfl
@[simp] theorem advance_mem : (s.advance).mem = s.mem := rfl
@[simp] theorem advance_fb : (s.advance).fb = s.fb := rfl
@[simp] theorem advance_keys : (s.advance).keys = s.keys := rfl
@[simp] theorem advance_mode : (s.advance).mode = s.mode := rfl
@[simp] theorem advance_cfg : (s.advance).cfg = s.cfg := rfl
@[simp] theorem advance_draws : (s.advance).draws = s.draws := rfl
@[simp] theorem advance_reports : (s.advance).reports = s.reports := rfl
@[simp] theorem advance_loadResults : (s.advance).loadResults = s.loadResults := rfl
@[simp] theorem advance_schedule : (s.advance).schedule = s.schedule := rfl
@[simp] theorem advance_readV (r : Reg) : (s.advance).readV r = s.readV r := rfl
@[simp] theorem advance_loadByte (k : Nat) : (s.advance).loadByte k = s.loadByte k := rfl
@[simp] theorem advance_keyPressed (k : Fin 16) : (s.advance).keyPressed k = s.keyPressed k := rfl

/-! ## setFb -/

@[simp] theorem setFb_v (f : Frame) : (s.setFb f).v = s.v := rfl
@[simp] theorem setFb_i (f : Frame) : (s.setFb f).i = s.i := rfl
@[simp] theorem setFb_pc (f : Frame) : (s.setFb f).pc = s.pc := rfl
@[simp] theorem setFb_stack (f : Frame) : (s.setFb f).stack = s.stack := rfl
@[simp] theorem setFb_sp (f : Frame) : (s.setFb f).sp = s.sp := rfl
@[simp] theorem setFb_dt (f : Frame) : (s.setFb f).dt = s.dt := rfl
@[simp] theorem setFb_st (f : Frame) : (s.setFb f).st = s.st := rfl
@[simp] theorem setFb_mem (f : Frame) : (s.setFb f).mem = s.mem := rfl
@[simp] theorem setFb_fb (f : Frame) : (s.setFb f).fb = f := rfl
@[simp] theorem setFb_keys (f : Frame) : (s.setFb f).keys = s.keys := rfl
@[simp] theorem setFb_mode (f : Frame) : (s.setFb f).mode = s.mode := rfl
@[simp] theorem setFb_cfg (f : Frame) : (s.setFb f).cfg = s.cfg := rfl
@[simp] theorem setFb_draws (f : Frame) : (s.setFb f).draws = s.draws := rfl
@[simp] theorem setFb_reports (f : Frame) : (s.setFb f).reports = s.reports := rfl
@[simp] theorem setFb_loadResults (f : Frame) : (s.setFb f).loadResults = s.loadResults := rfl
@[simp] theorem setFb_schedule (f : Frame) : (s.setFb f).schedule = s.schedule := rfl
@[simp] theorem setFb_readV (f : Frame) (r : Reg) : (s.setFb f).readV r = s.readV r := rfl
@[simp] theorem setFb_loadByte (f : Frame) (k : Nat) : (s.setFb f).loadByte k = s.loadByte k := rfl
@[simp] theorem setFb_keyPressed (f : Frame) (k : Fin 16) : (s.setFb f).keyPressed k = s.keyPressed k := rfl

/-! ## report -/

@[simp] theorem report_v (w a : Word) : (s.report w a).v = s.v := rfl
@[simp] theorem report_i (w a : Word) : (s.report w a).i = s.i := rfl
@[simp] theorem report_pc (w a : Word) : (s.report w a).pc = s.pc := rfl
@[simp] theorem report_stack (w a : Word) : (s.report w a).stack = s.stack := rfl
@[simp] theorem report_sp (w a : Word) : (s.report w a).sp = s.sp := rfl
@[simp] theorem report_dt (w a : Word) : (s.report w a).dt = s.dt := rfl
@[simp] theorem report_st (w a : Word) : (s.report w a).st = s.st := rfl
@[simp] theorem report_mem (w a : Word) : (s.report w a).mem = s.mem := rfl
@[simp] theorem report_fb (w a : Word) : (s.report w a).fb = s.fb := rfl
@[simp] theorem report_keys (w a : Word) : (s.report w a).keys = s.keys := rfl
@[simp] theorem report_mode (w a : Word) : (s.report w a).mode = s.mode := rfl
@[simp] theorem report_cfg (w a : Word) : (s.report w a).cfg = s.cfg := rfl
@[simp] theorem report_draws (w a : Word) : (s.report w a).draws = s.draws := rfl
@[simp] theorem report_reports (w a : Word) : (s.report w a).reports = s.reports ++ [⟨w, a⟩] := rfl
@[simp] theorem report_loadResults (w a : Word) : (s.report w a).loadResults = s.loadResults := rfl
@[simp] theorem report_schedule (w a : Word) : (s.report w a).schedule = s.schedule := rfl
@[simp] theorem report_readV (w a : Word) (r : Reg) : (s.report w a).readV r = s.readV r := rfl
@[simp] theorem report_loadByte (w a : Word) (k : Nat) : (s.report w a).loadByte k = s.loadByte k := rfl
@[simp] theorem report_keyPressed (w a : Word) (k : Fin 16) : (s.report w a).keyPressed k = s.keyPressed k := rfl

/-! ## takeFault -/

@[simp] theorem takeFault_v (f : Fault) (w : Option Word) : (s.takeFault f w).v = s.v := rfl
@[simp] theorem takeFault_i (f : Fault) (w : Option Word) : (s.takeFault f w).i = s.i := rfl
@[simp] theorem takeFault_pc (f : Fault) (w : Option Word) : (s.takeFault f w).pc = s.pc := rfl
@[simp] theorem takeFault_stack (f : Fault) (w : Option Word) : (s.takeFault f w).stack = s.stack := rfl
@[simp] theorem takeFault_sp (f : Fault) (w : Option Word) : (s.takeFault f w).sp = s.sp := rfl
@[simp] theorem takeFault_dt (f : Fault) (w : Option Word) : (s.takeFault f w).dt = s.dt := rfl
@[simp] theorem takeFault_st (f : Fault) (w : Option Word) : (s.takeFault f w).st = s.st := rfl
@[simp] theorem takeFault_mem (f : Fault) (w : Option Word) : (s.takeFault f w).mem = s.mem := rfl
@[simp] theorem takeFault_fb (f : Fault) (w : Option Word) : (s.takeFault f w).fb = s.fb := rfl
@[simp] theorem takeFault_keys (f : Fault) (w : Option Word) : (s.takeFault f w).keys = s.keys := rfl
@[simp] theorem takeFault_mode (f : Fault) (w : Option Word) : (s.takeFault f w).mode = .halted ⟨f, s.pc, w⟩ := rfl
@[simp] theorem takeFault_cfg (f : Fault) (w : Option Word) : (s.takeFault f w).cfg = s.cfg := rfl
@[simp] theorem takeFault_draws (f : Fault) (w : Option Word) : (s.takeFault f w).draws = s.draws := rfl
@[simp] theorem takeFault_reports (f : Fault) (w : Option Word) : (s.takeFault f w).reports = s.reports := rfl
@[simp] theorem takeFault_loadResults (f : Fault) (w : Option Word) : (s.takeFault f w).loadResults = s.loadResults := rfl
@[simp] theorem takeFault_schedule (f : Fault) (w : Option Word) : (s.takeFault f w).schedule = s.schedule := rfl
@[simp] theorem takeFault_readV (f : Fault) (w : Option Word) (r : Reg) : (s.takeFault f w).readV r = s.readV r := rfl
@[simp] theorem takeFault_loadByte (f : Fault) (w : Option Word) (k : Nat) : (s.takeFault f w).loadByte k = s.loadByte k := rfl
@[simp] theorem takeFault_keyPressed (f : Fault) (w : Option Word) (k : Fin 16) : (s.takeFault f w).keyPressed k = s.keyPressed k := rfl

/-! ## loadRegs -/

@[simp] theorem loadRegs_i (a : Nat) (x : Reg) : (s.loadRegs a x).i = s.i := rfl
@[simp] theorem loadRegs_pc (a : Nat) (x : Reg) : (s.loadRegs a x).pc = s.pc := rfl
@[simp] theorem loadRegs_stack (a : Nat) (x : Reg) : (s.loadRegs a x).stack = s.stack := rfl
@[simp] theorem loadRegs_sp (a : Nat) (x : Reg) : (s.loadRegs a x).sp = s.sp := rfl
@[simp] theorem loadRegs_dt (a : Nat) (x : Reg) : (s.loadRegs a x).dt = s.dt := rfl
@[simp] theorem loadRegs_st (a : Nat) (x : Reg) : (s.loadRegs a x).st = s.st := rfl
@[simp] theorem loadRegs_mem (a : Nat) (x : Reg) : (s.loadRegs a x).mem = s.mem := rfl
@[simp] theorem loadRegs_fb (a : Nat) (x : Reg) : (s.loadRegs a x).fb = s.fb := rfl
@[simp] theorem loadRegs_keys (a : Nat) (x : Reg) : (s.loadRegs a x).keys = s.keys := rfl
@[simp] theorem loadRegs_mode (a : Nat) (x : Reg) : (s.loadRegs a x).mode = s.mode := rfl
@[simp] theorem loadRegs_cfg (a : Nat) (x : Reg) : (s.loadRegs a x).cfg = s.cfg := rfl
@[simp] theorem loadRegs_draws (a : Nat) (x : Reg) : (s.loadRegs a x).draws = s.draws := rfl
@[simp] theorem loadRegs_reports (a : Nat) (x : Reg) : (s.loadRegs a x).reports = s.reports := rfl
@[simp] theorem loadRegs_loadResults (a : Nat) (x : Reg) : (s.loadRegs a x).loadResults = s.loadResults := rfl
@[simp] theorem loadRegs_schedule (a : Nat) (x : Reg) : (s.loadRegs a x).schedule = s.schedule := rfl
@[simp] theorem loadRegs_loadByte (a : Nat) (x : Reg) (k : Nat) : (s.loadRegs a x).loadByte k = s.loadByte k := rfl
@[simp] theorem loadRegs_keyPressed (a : Nat) (x : Reg) (k : Fin 16) : (s.loadRegs a x).keyPressed k = s.keyPressed k := rfl

/-! ## setKeys -/

@[simp] theorem setKeys_v (k : Keys) : (setKeys k s).v = s.v := rfl
@[simp] theorem setKeys_i (k : Keys) : (setKeys k s).i = s.i := rfl
@[simp] theorem setKeys_pc (k : Keys) : (setKeys k s).pc = s.pc := rfl
@[simp] theorem setKeys_stack (k : Keys) : (setKeys k s).stack = s.stack := rfl
@[simp] theorem setKeys_sp (k : Keys) : (setKeys k s).sp = s.sp := rfl
@[simp] theorem setKeys_dt (k : Keys) : (setKeys k s).dt = s.dt := rfl
@[simp] theorem setKeys_st (k : Keys) : (setKeys k s).st = s.st := rfl
@[simp] theorem setKeys_mem (k : Keys) : (setKeys k s).mem = s.mem := rfl
@[simp] theorem setKeys_fb (k : Keys) : (setKeys k s).fb = s.fb := rfl
@[simp] theorem setKeys_keys (k : Keys) : (setKeys k s).keys = k := rfl
@[simp] theorem setKeys_mode (k : Keys) : (setKeys k s).mode = s.mode := rfl
@[simp] theorem setKeys_cfg (k : Keys) : (setKeys k s).cfg = s.cfg := rfl
@[simp] theorem setKeys_draws (k : Keys) : (setKeys k s).draws = s.draws := rfl
@[simp] theorem setKeys_reports (k : Keys) : (setKeys k s).reports = s.reports := rfl
@[simp] theorem setKeys_loadResults (k : Keys) : (setKeys k s).loadResults = s.loadResults := rfl
@[simp] theorem setKeys_schedule (k : Keys) : (setKeys k s).schedule = s.schedule := rfl
@[simp] theorem setKeys_readV (k : Keys) (r : Reg) : (setKeys k s).readV r = s.readV r := rfl
@[simp] theorem setKeys_keyPressed (k : Keys) (j : Fin 16) : (setKeys k s).keyPressed j = k.getLsbD j.val := rfl
@[simp] theorem setKeys_loadByte (k : Keys) (a : Nat) : (setKeys k s).loadByte a = s.loadByte a := rfl

/-! ## setStack -/

@[simp] theorem setStack_v (stk : Vector Word 16) (k : Fin 17) : (s.setStack stk k).v = s.v := rfl
@[simp] theorem setStack_i (stk : Vector Word 16) (k : Fin 17) : (s.setStack stk k).i = s.i := rfl
@[simp] theorem setStack_pc (stk : Vector Word 16) (k : Fin 17) : (s.setStack stk k).pc = s.pc := rfl
@[simp] theorem setStack_stack (stk : Vector Word 16) (k : Fin 17) : (s.setStack stk k).stack = stk := rfl
@[simp] theorem setStack_sp (stk : Vector Word 16) (k : Fin 17) : (s.setStack stk k).sp = k := rfl
@[simp] theorem setStack_dt (stk : Vector Word 16) (k : Fin 17) : (s.setStack stk k).dt = s.dt := rfl
@[simp] theorem setStack_st (stk : Vector Word 16) (k : Fin 17) : (s.setStack stk k).st = s.st := rfl
@[simp] theorem setStack_mem (stk : Vector Word 16) (k : Fin 17) : (s.setStack stk k).mem = s.mem := rfl
@[simp] theorem setStack_fb (stk : Vector Word 16) (k : Fin 17) : (s.setStack stk k).fb = s.fb := rfl
@[simp] theorem setStack_keys (stk : Vector Word 16) (k : Fin 17) : (s.setStack stk k).keys = s.keys := rfl
@[simp] theorem setStack_mode (stk : Vector Word 16) (k : Fin 17) : (s.setStack stk k).mode = s.mode := rfl
@[simp] theorem setStack_cfg (stk : Vector Word 16) (k : Fin 17) : (s.setStack stk k).cfg = s.cfg := rfl
@[simp] theorem setStack_draws (stk : Vector Word 16) (k : Fin 17) : (s.setStack stk k).draws = s.draws := rfl
@[simp] theorem setStack_reports (stk : Vector Word 16) (k : Fin 17) : (s.setStack stk k).reports = s.reports := rfl
@[simp] theorem setStack_loadResults (stk : Vector Word 16) (k : Fin 17) : (s.setStack stk k).loadResults = s.loadResults := rfl
@[simp] theorem setStack_schedule (stk : Vector Word 16) (k : Fin 17) : (s.setStack stk k).schedule = s.schedule := rfl
@[simp] theorem setStack_readV (stk : Vector Word 16) (k : Fin 17) (r : Reg) : (s.setStack stk k).readV r = s.readV r := rfl
@[simp] theorem setStack_loadByte (stk : Vector Word 16) (k : Fin 17) (a : Nat) :
    (s.setStack stk k).loadByte a = s.loadByte a := rfl
@[simp] theorem setStack_keyPressed (stk : Vector Word 16) (k : Fin 17) (j : Fin 16) :
    (s.setStack stk k).keyPressed j = s.keyPressed j := rfl

/-! ## draw -/

@[simp] theorem draw_byte : s.draw.1 = Config.freeByte s.draws := rfl
@[simp] theorem draw_v : s.draw.2.v = s.v := rfl
@[simp] theorem draw_i : s.draw.2.i = s.i := rfl
@[simp] theorem draw_pc : s.draw.2.pc = s.pc := rfl
@[simp] theorem draw_stack : s.draw.2.stack = s.stack := rfl
@[simp] theorem draw_sp : s.draw.2.sp = s.sp := rfl
@[simp] theorem draw_dt : s.draw.2.dt = s.dt := rfl
@[simp] theorem draw_st : s.draw.2.st = s.st := rfl
@[simp] theorem draw_mem : s.draw.2.mem = s.mem := rfl
@[simp] theorem draw_fb : s.draw.2.fb = s.fb := rfl
@[simp] theorem draw_keys : s.draw.2.keys = s.keys := rfl
@[simp] theorem draw_mode : s.draw.2.mode = s.mode := rfl
@[simp] theorem draw_cfg : s.draw.2.cfg = s.cfg := rfl
@[simp] theorem draw_draws : s.draw.2.draws = s.draws + 1 := rfl
@[simp] theorem draw_reports : s.draw.2.reports = s.reports := rfl
@[simp] theorem draw_loadResults : s.draw.2.loadResults = s.loadResults := rfl
@[simp] theorem draw_schedule : s.draw.2.schedule = s.schedule := rfl
@[simp] theorem draw_readV (r : Reg) : s.draw.2.readV r = s.readV r := rfl
@[simp] theorem draw_loadByte (k : Nat) : s.draw.2.loadByte k = s.loadByte k := rfl
@[simp] theorem draw_keyPressed (k : Fin 16) : s.draw.2.keyPressed k = s.keyPressed k := rfl

/-! ## skipIf: nothing but PC -/

@[simp] theorem skipIf_v (c : Bool) : (s.skipIf c).v = s.v := by cases c <;> rfl
@[simp] theorem skipIf_i (c : Bool) : (s.skipIf c).i = s.i := by cases c <;> rfl
@[simp] theorem skipIf_stack (c : Bool) : (s.skipIf c).stack = s.stack := by cases c <;> rfl
@[simp] theorem skipIf_sp (c : Bool) : (s.skipIf c).sp = s.sp := by cases c <;> rfl
@[simp] theorem skipIf_dt (c : Bool) : (s.skipIf c).dt = s.dt := by cases c <;> rfl
@[simp] theorem skipIf_st (c : Bool) : (s.skipIf c).st = s.st := by cases c <;> rfl
@[simp] theorem skipIf_mem (c : Bool) : (s.skipIf c).mem = s.mem := by cases c <;> rfl
@[simp] theorem skipIf_fb (c : Bool) : (s.skipIf c).fb = s.fb := by cases c <;> rfl
@[simp] theorem skipIf_keys (c : Bool) : (s.skipIf c).keys = s.keys := by cases c <;> rfl
@[simp] theorem skipIf_mode (c : Bool) : (s.skipIf c).mode = s.mode := by cases c <;> rfl
@[simp] theorem skipIf_cfg (c : Bool) : (s.skipIf c).cfg = s.cfg := by cases c <;> rfl
@[simp] theorem skipIf_draws (c : Bool) : (s.skipIf c).draws = s.draws := by cases c <;> rfl
@[simp] theorem skipIf_reports (c : Bool) : (s.skipIf c).reports = s.reports := by cases c <;> rfl
@[simp] theorem skipIf_loadResults (c : Bool) : (s.skipIf c).loadResults = s.loadResults := by cases c <;> rfl
@[simp] theorem skipIf_schedule (c : Bool) : (s.skipIf c).schedule = s.schedule := by cases c <;> rfl
@[simp] theorem skipIf_readV (c : Bool) (r : Reg) : (s.skipIf c).readV r = s.readV r := by cases c <;> rfl
@[simp] theorem skipIf_loadByte (c : Bool) (k : Nat) : (s.skipIf c).loadByte k = s.loadByte k := by cases c <;> rfl
@[simp] theorem skipIf_keyPressed (c : Bool) (k : Fin 16) : (s.skipIf c).keyPressed k = s.keyPressed k := by
  cases c <;> rfl

/-! ## writeResultFlag: nothing but V -/

@[simp] theorem writeResultFlag_i (x : Reg) (r : Byte) (c : Bool) : (s.writeResultFlag x r c).i = s.i := by
  unfold State.writeResultFlag; split <;> rfl
@[simp] theorem writeResultFlag_pc (x : Reg) (r : Byte) (c : Bool) : (s.writeResultFlag x r c).pc = s.pc := by
  unfold State.writeResultFlag; split <;> rfl
@[simp] theorem writeResultFlag_stack (x : Reg) (r : Byte) (c : Bool) : (s.writeResultFlag x r c).stack = s.stack := by
  unfold State.writeResultFlag; split <;> rfl
@[simp] theorem writeResultFlag_sp (x : Reg) (r : Byte) (c : Bool) : (s.writeResultFlag x r c).sp = s.sp := by
  unfold State.writeResultFlag; split <;> rfl
@[simp] theorem writeResultFlag_dt (x : Reg) (r : Byte) (c : Bool) : (s.writeResultFlag x r c).dt = s.dt := by
  unfold State.writeResultFlag; split <;> rfl
@[simp] theorem writeResultFlag_st (x : Reg) (r : Byte) (c : Bool) : (s.writeResultFlag x r c).st = s.st := by
  unfold State.writeResultFlag; split <;> rfl
@[simp] theorem writeResultFlag_mem (x : Reg) (r : Byte) (c : Bool) : (s.writeResultFlag x r c).mem = s.mem := by
  unfold State.writeResultFlag; split <;> rfl
@[simp] theorem writeResultFlag_fb (x : Reg) (r : Byte) (c : Bool) : (s.writeResultFlag x r c).fb = s.fb := by
  unfold State.writeResultFlag; split <;> rfl
@[simp] theorem writeResultFlag_keys (x : Reg) (r : Byte) (c : Bool) : (s.writeResultFlag x r c).keys = s.keys := by
  unfold State.writeResultFlag; split <;> rfl
@[simp] theorem writeResultFlag_mode (x : Reg) (r : Byte) (c : Bool) : (s.writeResultFlag x r c).mode = s.mode := by
  unfold State.writeResultFlag; split <;> rfl
@[simp] theorem writeResultFlag_cfg (x : Reg) (r : Byte) (c : Bool) : (s.writeResultFlag x r c).cfg = s.cfg := by
  unfold State.writeResultFlag; split <;> rfl
@[simp] theorem writeResultFlag_draws (x : Reg) (r : Byte) (c : Bool) : (s.writeResultFlag x r c).draws = s.draws := by
  unfold State.writeResultFlag; split <;> rfl
@[simp] theorem writeResultFlag_reports (x : Reg) (r : Byte) (c : Bool) : (s.writeResultFlag x r c).reports = s.reports := by
  unfold State.writeResultFlag; split <;> rfl
@[simp] theorem writeResultFlag_loadResults (x : Reg) (r : Byte) (c : Bool) : (s.writeResultFlag x r c).loadResults = s.loadResults := by
  unfold State.writeResultFlag; split <;> rfl
@[simp] theorem writeResultFlag_schedule (x : Reg) (r : Byte) (c : Bool) : (s.writeResultFlag x r c).schedule = s.schedule := by
  unfold State.writeResultFlag; split <;> rfl
@[simp] theorem writeResultFlag_loadByte (x : Reg) (r : Byte) (c : Bool) (k : Nat) :
    (s.writeResultFlag x r c).loadByte k = s.loadByte k := by
  unfold State.writeResultFlag; split <;> rfl
@[simp] theorem writeResultFlag_keyPressed (x : Reg) (r : Byte) (c : Bool) (k : Fin 16) :
    (s.writeResultFlag x r c).keyPressed k = s.keyPressed k := by
  unfold State.writeResultFlag; split <;> rfl

/-! ## storeBytes: nothing but memory -/

@[simp] theorem storeBytes_v (a : Nat) (bs : List Byte) : (s.storeBytes a bs).v = s.v := by
  induction bs generalizing s a with
  | nil => rfl
  | cons b bs ih => exact ih (s.storeByte a b) (a + 1)
@[simp] theorem storeBytes_i (a : Nat) (bs : List Byte) : (s.storeBytes a bs).i = s.i := by
  induction bs generalizing s a with
  | nil => rfl
  | cons b bs ih => exact ih (s.storeByte a b) (a + 1)
@[simp] theorem storeBytes_pc (a : Nat) (bs : List Byte) : (s.storeBytes a bs).pc = s.pc := by
  induction bs generalizing s a with
  | nil => rfl
  | cons b bs ih => exact ih (s.storeByte a b) (a + 1)
@[simp] theorem storeBytes_stack (a : Nat) (bs : List Byte) : (s.storeBytes a bs).stack = s.stack := by
  induction bs generalizing s a with
  | nil => rfl
  | cons b bs ih => exact ih (s.storeByte a b) (a + 1)
@[simp] theorem storeBytes_sp (a : Nat) (bs : List Byte) : (s.storeBytes a bs).sp = s.sp := by
  induction bs generalizing s a with
  | nil => rfl
  | cons b bs ih => exact ih (s.storeByte a b) (a + 1)
@[simp] theorem storeBytes_dt (a : Nat) (bs : List Byte) : (s.storeBytes a bs).dt = s.dt := by
  induction bs generalizing s a with
  | nil => rfl
  | cons b bs ih => exact ih (s.storeByte a b) (a + 1)
@[simp] theorem storeBytes_st (a : Nat) (bs : List Byte) : (s.storeBytes a bs).st = s.st := by
  induction bs generalizing s a with
  | nil => rfl
  | cons b bs ih => exact ih (s.storeByte a b) (a + 1)
@[simp] theorem storeBytes_fb (a : Nat) (bs : List Byte) : (s.storeBytes a bs).fb = s.fb := by
  induction bs generalizing s a with
  | nil => rfl
  | cons b bs ih => exact ih (s.storeByte a b) (a + 1)
@[simp] theorem storeBytes_keys (a : Nat) (bs : List Byte) : (s.storeBytes a bs).keys = s.keys := by
  induction bs generalizing s a with
  | nil => rfl
  | cons b bs ih => exact ih (s.storeByte a b) (a + 1)
@[simp] theorem storeBytes_mode (a : Nat) (bs : List Byte) : (s.storeBytes a bs).mode = s.mode := by
  induction bs generalizing s a with
  | nil => rfl
  | cons b bs ih => exact ih (s.storeByte a b) (a + 1)
@[simp] theorem storeBytes_cfg (a : Nat) (bs : List Byte) : (s.storeBytes a bs).cfg = s.cfg := by
  induction bs generalizing s a with
  | nil => rfl
  | cons b bs ih => exact ih (s.storeByte a b) (a + 1)
@[simp] theorem storeBytes_draws (a : Nat) (bs : List Byte) : (s.storeBytes a bs).draws = s.draws := by
  induction bs generalizing s a with
  | nil => rfl
  | cons b bs ih => exact ih (s.storeByte a b) (a + 1)
@[simp] theorem storeBytes_reports (a : Nat) (bs : List Byte) : (s.storeBytes a bs).reports = s.reports := by
  induction bs generalizing s a with
  | nil => rfl
  | cons b bs ih => exact ih (s.storeByte a b) (a + 1)
@[simp] theorem storeBytes_loadResults (a : Nat) (bs : List Byte) : (s.storeBytes a bs).loadResults = s.loadResults := by
  induction bs generalizing s a with
  | nil => rfl
  | cons b bs ih => exact ih (s.storeByte a b) (a + 1)
@[simp] theorem storeBytes_schedule (a : Nat) (bs : List Byte) : (s.storeBytes a bs).schedule = s.schedule := by
  induction bs generalizing s a with
  | nil => rfl
  | cons b bs ih => exact ih (s.storeByte a b) (a + 1)
@[simp] theorem storeBytes_readV (a : Nat) (bs : List Byte) (r : Reg) : (s.storeBytes a bs).readV r = s.readV r := by
  simp [State.readV]
@[simp] theorem storeBytes_keyPressed (a : Nat) (bs : List Byte) (k : Fin 16) :
    (s.storeBytes a bs).keyPressed k = s.keyPressed k := by
  simp [State.keyPressed]

end Sys2Proof.Machine
end

