-- ==== Sys2Proof/Laws/Memory.lean ====
section
/-! SUPPORT. What reading and writing memory do, once: a byte reads as last written, every other byte as before, and the
canonical form is kept. -/

namespace Sys2Proof.Machine

variable {font : Vector Byte 80}

theorem Memory.read_erase (m : List Host.Cell) (a c : Nat) :
    Memory.read font (Memory.erase m a) c = if c = a then initByte font a else Memory.read font m c := by
  induction m with
  | nil => simp only [Memory.erase, Memory.read]; split <;> simp_all
  | cons cell rest ih =>
    obtain ⟨k, b⟩ := cell
    simp only [Memory.erase]
    split
    · rename_i hk; subst hk
      simp only [ih, Memory.read]
      split <;> simp_all [eq_comm]
    · simp only [Memory.read, ih]
      split <;> simp_all

theorem Memory.read_insert_self (m : List Host.Cell) (a : Nat) (v : Byte) (h : ∀ c ∈ m, c.1 ≠ a) :
    Memory.read font (Memory.insert m a v) a = v := by
  induction m with
  | nil => simp [Memory.insert, Memory.read]
  | cons cell rest ih =>
    obtain ⟨k, b⟩ := cell
    have hk : k ≠ a := h (k, b) (by simp)
    simp only [Memory.insert]
    split
    · simp [Memory.read]
    · simp [Memory.read, hk, ih (fun c hc => h c (by simp [hc]))]

theorem Memory.read_insert_of_ne (m : List Host.Cell) (a c : Nat) (v : Byte) (h : c ≠ a) :
    Memory.read font (Memory.insert m a v) c = Memory.read font m c := by
  induction m with
  | nil => simp [Memory.insert, Memory.read, h.symm]
  | cons cell rest ih =>
    obtain ⟨k, b⟩ := cell
    simp only [Memory.insert]
    split
    · simp [Memory.read, h.symm]
    · simp [Memory.read, ih]

theorem Memory.mem_erase {m : List Host.Cell} {a : Nat} {c : Host.Cell} :
    c ∈ Memory.erase m a ↔ c ∈ m ∧ c.1 ≠ a := by
  induction m with
  | nil => simp [Memory.erase]
  | cons cell rest ih =>
    obtain ⟨k, b⟩ := cell
    simp only [Memory.erase]
    split
    · rename_i hk; subst hk
      simp only [ih, List.mem_cons]
      constructor
      · rintro ⟨h1, h2⟩; exact ⟨.inr h1, h2⟩
      · rintro ⟨rfl | h1, h2⟩
        · exact absurd rfl h2
        · exact ⟨h1, h2⟩
    · rename_i hk
      simp only [List.mem_cons, ih]
      constructor
      · rintro (rfl | ⟨h1, h2⟩)
        · exact ⟨.inl rfl, hk⟩
        · exact ⟨.inr h1, h2⟩
      · rintro ⟨rfl | h1, h2⟩
        · exact .inl rfl
        · exact .inr ⟨h1, h2⟩

theorem Memory.mem_insert {m : List Host.Cell} {a : Nat} {v : Byte} {c : Host.Cell} :
    c ∈ Memory.insert m a v ↔ c = (a, v) ∨ c ∈ m := by
  induction m with
  | nil => simp [Memory.insert]
  | cons cell rest ih =>
    obtain ⟨k, b⟩ := cell
    simp only [Memory.insert]
    split
    · simp
    · simp only [List.mem_cons, ih]; tauto

/-- A write reads back as the byte written at its address, and as before at every other. -/
theorem Memory.read_write (m : List Host.Cell) (a c : Nat) (v : Byte) :
    Memory.read font (Memory.write font m a v) c = if c = a then v else Memory.read font m c := by
  unfold Memory.write
  split
  · rename_i hv; rw [Memory.read_erase, hv]
  · split
    · rename_i hc; subst hc
      exact Memory.read_insert_self _ _ _ fun c hc => (Memory.mem_erase.mp hc).2
    · rename_i hc
      rw [Memory.read_insert_of_ne _ _ _ _ hc, Memory.read_erase, if_neg hc]

theorem Memory.wf_cons {k : Nat} {b : Byte} {rest : List Host.Cell} :
    Memory.wf font ((k, b) :: rest) = true ↔
      k < 0x1000 ∧ b ≠ initByte font k ∧ (∀ c ∈ rest, k < c.1) ∧ Memory.wf font rest = true := by
  simp [Memory.wf, and_assoc]

theorem Memory.wf_erase {m : List Host.Cell} (a : Nat) (h : Memory.wf font m = true) :
    Memory.wf font (Memory.erase m a) = true := by
  induction m with
  | nil => rfl
  | cons cell rest ih =>
    obtain ⟨k, b⟩ := cell
    obtain ⟨h1, h2, h3, h4⟩ := Memory.wf_cons.mp h
    simp only [Memory.erase]
    split
    · exact ih h4
    · exact Memory.wf_cons.mpr ⟨h1, h2, fun c hc => h3 c (Memory.mem_erase.mp hc).1, ih h4⟩

theorem Memory.wf_insert {m : List Host.Cell} {a : Nat} {v : Byte} (h : Memory.wf font m = true)
    (ha : a < 0x1000) (hv : v ≠ initByte font a) (hm : ∀ c ∈ m, c.1 ≠ a) :
    Memory.wf font (Memory.insert m a v) = true := by
  induction m with
  | nil => exact Memory.wf_cons.mpr ⟨ha, hv, by simp, rfl⟩
  | cons cell rest ih =>
    obtain ⟨k, b⟩ := cell
    obtain ⟨h1, h2, h3, h4⟩ := Memory.wf_cons.mp h
    have hk : k ≠ a := hm (k, b) (by simp)
    simp only [Memory.insert]
    split
    · rename_i hlt
      refine Memory.wf_cons.mpr ⟨ha, hv, ?_, h⟩
      rintro c hc
      rcases List.mem_cons.mp hc with rfl | hc
      · exact hlt
      · exact lt_trans hlt (h3 c hc)
    · rename_i hlt
      refine Memory.wf_cons.mpr ⟨h1, h2, ?_, ih h4 fun c hc => hm c (by simp [hc])⟩
      intro c hc
      rcases Memory.mem_insert.mp hc with rfl | hc
      · show k < a
        omega
      · exact h3 c hc

/-- A write at a valid address keeps the canonical form. -/
theorem Memory.wf_write {m : List Host.Cell} {a : Nat} (v : Byte) (h : Memory.wf font m = true) (ha : a < 0x1000) :
    Memory.wf font (Memory.write font m a v) = true := by
  unfold Memory.write
  split
  · exact Memory.wf_erase a h
  · exact Memory.wf_insert (Memory.wf_erase a h) ha ‹_› fun c hc => (Memory.mem_erase.mp hc).2

/-- `storeByte` as reading sees it. -/
@[simp] theorem loadByte_storeByte (s : State) (a c : Nat) (b : Byte) :
    (s.storeByte a b).loadByte c = if c = a then b else s.loadByte c :=
  Memory.read_write _ _ _ _

/-- `storeBytes` as reading sees it. -/
theorem loadByte_storeBytes (s : State) (a c : Nat) (bs : List Byte) :
    (s.storeBytes a bs).loadByte c =
      if h : a ≤ c ∧ c - a < bs.length then bs[c - a]'h.2 else s.loadByte c := by
  induction bs generalizing s a with
  | nil => simp [State.storeBytes]
  | cons b bs ih =>
    rw [State.storeBytes, ih]
    by_cases hc : c = a
    · subst hc
      simp
    · by_cases h1 : a + 1 ≤ c ∧ c - (a + 1) < bs.length
      · have h2 : a ≤ c ∧ c - a < (b :: bs).length := ⟨by omega, by simp only [List.length_cons]; omega⟩
        rw [dif_pos h1, dif_pos h2]
        have : c - a = (c - (a + 1)) + 1 := by omega
        simp [this]
      · have h2 : ¬(a ≤ c ∧ c - a < (b :: bs).length) := by simp only [List.length_cons]; omega
        rw [dif_neg h1, dif_neg h2]
        simp [hc]

/-- Bytes stored at valid addresses keep the canonical form. -/
theorem wf_storeBytes {s : State} {a : Nat} {bs : List Byte} (h : Memory.wf s.cfg.font s.mem = true)
    (ha : a + bs.length ≤ 0x1000) : Memory.wf s.cfg.font (s.storeBytes a bs).mem = true := by
  induction bs generalizing s a with
  | nil => exact h
  | cons b bs ih =>
    simp only [List.length_cons] at ha
    exact ih (s := s.storeByte a b) (Memory.wf_write b h (by omega)) (by omega)

/-- The check of R52 answers the lowest invalid address, exactly when there is one. -/
theorem firstInvalid_cases (base n : Nat) :
    (firstInvalid base n = none ∧ (n = 0 ∨ base + (n - 1) ≤ 0xFFF)) ∨
      (firstInvalid base n = some (max base 0x1000) ∧ n ≠ 0 ∧ 0xFFF < base + (n - 1)) := by
  unfold firstInvalid
  split
  · exact .inl ⟨rfl, .inl ‹_›⟩
  · split
    · exact .inl ⟨rfl, .inr ‹_›⟩
    · exact .inr ⟨rfl, ‹_›, by omega⟩

theorem firstInvalid_valid {base n : Nat} (h : n = 0 ∨ base + (n - 1) ≤ 0xFFF) : firstInvalid base n = none := by
  rcases firstInvalid_cases base n with h' | h'
  · exact h'.1
  · omega

theorem firstInvalid_invalid {base n : Nat} (h : ¬(n = 0 ∨ base + (n - 1) ≤ 0xFFF)) :
    firstInvalid base n = some (max base 0x1000) := by
  rcases firstInvalid_cases base n with h' | h'
  · exact absurd h'.2 h
  · exact h'.1

/-- The address the check answers is invalid, is one of the access's, and every address of the access below it is
valid: it is the lowest invalid address of the list (20_memory.md R52). -/
theorem firstInvalid_is_lowest {base n a : Nat} (h : firstInvalid base n = some a) :
    0xFFF < a ∧ (∃ k, k < n ∧ a = base + k) ∧ ∀ k, k < n → base + k < a → base + k ≤ 0xFFF := by
  rcases firstInvalid_cases base n with h' | ⟨h', hn, hb⟩
  · simp [h'.1] at h
  · rw [h', Option.some_inj] at h
    subst h
    refine ⟨by omega, ⟨max base 0x1000 - base, by omega, by omega⟩, fun k _ hk => by omega⟩

end Sys2Proof.Machine
end

