-- ==== Sys2Proof/Laws/Ops.lean ====
section
/-! SUPPORT. What each shared operation can do, said once: the frame of an instruction, PC, registers, flags, the call
stack, the keypad operands and the sprite. -/

namespace Sys2Proof.Machine

/-! ## The frame of an instruction -/

theorem perform_ok {i : Instr} {body : State → Except Fault State} {s t : State} (h : body s.advance = .ok t) :
    perform i body s = .next t := by
  simp [perform, h]

theorem perform_error {i : Instr} {body : State → Except Fault State} {s : State} {f : Fault}
    (h : body s.advance = .error f) : perform i body s = .next (s.takeFault f (some (encode i))) := by
  simp [perform, h]

/-- An instruction's tick ends in what its body leaves, or in the fault its body raises; it always ends in a state. -/
theorem perform_cases (i : Instr) (body : State → Except Fault State) (s : State) :
    (∃ t, body s.advance = .ok t ∧ perform i body s = .next t) ∨
      (∃ f, body s.advance = .error f ∧ perform i body s = .next (s.takeFault f (some (encode i)))) := by
  cases h : body s.advance with
  | ok t => exact .inl ⟨t, rfl, perform_ok h⟩
  | error f => exact .inr ⟨f, rfl, perform_error h⟩

/-- The inversion of `perform`. -/
theorem perform_next {i : Instr} {body : State → Except Fault State} {s t : State} (h : perform i body s = .next t) :
    body s.advance = .ok t ∨ ∃ f, body s.advance = .error f ∧ t = s.takeFault f (some (encode i)) := by
  rcases perform_cases i body s with ⟨u, h1, h2⟩ | ⟨f, h1, h2⟩
  · rw [h2] at h; cases h; exact .inl h1
  · rw [h2] at h; cases h; exact .inr ⟨f, h1, rfl⟩

/-! ## PC -/

@[simp] theorem pcValue_toNat (n : Nat) : (pcValue n).toNat = n % 0x1000 := by
  simp only [pcValue, BitVec.toNat_ofNat]
  exact Nat.mod_eq_of_lt (by omega)

theorem pcValue_lt (n : Nat) : (pcValue n).toNat < 0x1000 := by
  rw [pcValue_toNat]; exact Nat.mod_lt _ (by decide)

theorem pcValue_of_lt {w : Word} (h : w.toNat < 0x1000) : pcValue w.toNat = w := by
  apply BitVec.eq_of_toNat_eq
  rw [pcValue_toNat]; omega

/-- PC after a skip instruction whose condition is `c`. -/
theorem skipIf_advance_pc (s : State) (c : Bool) :
    (s.advance.skipIf c).pc.toNat = (if c = true then s.pc.toNat + 4 else s.pc.toNat + 2) % 0x1000 := by
  cases c
  · simp [State.skipIf]
  · simp only [State.skipIf, if_true, setPc_pc, advance_pc, pcValue_toNat]; omega

/-! ## Registers and flags -/

@[simp] theorem readV_writeV (s : State) (x r : Reg) (b : Byte) :
    (s.writeV x b).readV r = if r = x then b else s.readV r := by
  simp only [State.readV, State.writeV, Vector.getElem_set, Fin.val_inj, eq_comm]

theorem readV_writeResultFlag (s : State) (x r : Reg) (res : Byte) (c : Bool) :
    (s.writeResultFlag x res c).readV r =
      match s.cfg.vfOrder with
      | .flagLast => if r = vf then flagByte c else if r = x then res else s.readV r
      | .resultLast => if r = x then res else if r = vf then flagByte c else s.readV r := by
  unfold State.writeResultFlag
  cases s.cfg.vfOrder <;> simp only [readV_writeV]

theorem flagByte_toNat (c : Bool) : (flagByte c).toNat = if c = true then 1 else 0 := by cases c <;> rfl

theorem carry_toNat (a b : Byte) : (flagByte (carry a b)).toNat = if a.toNat + b.toNat > 255 then 1 else 0 := by
  simp [flagByte_toNat, carry]

theorem noBorrow_toNat (a b : Byte) : (flagByte (noBorrow a b)).toNat = if a.toNat ≥ b.toNat then 1 else 0 := by
  simp [flagByte_toNat, noBorrow]

@[simp] theorem addBytes_toNat (a b : Byte) : (addBytes a b).toNat = (a.toNat + b.toNat) % 256 := by
  simp [addBytes]

@[simp] theorem subBytes_toNat (a b : Byte) : ((subBytes a b).toNat : Int) = ((a.toNat : Int) - b.toNat) % 256 := by
  simp only [subBytes, BitVec.toNat_ofInt]
  omega

@[simp] theorem shiftRight_eq (a : Byte) : shiftRight a = a >>> 1 := by
  apply BitVec.eq_of_toNat_eq
  have := a.isLt
  simp only [shiftRight, BitVec.toNat_ofNat, BitVec.toNat_ushiftRight, Nat.shiftRight_eq_div_pow]
  omega

@[simp] theorem shiftLeft_eq (a : Byte) : shiftLeft a = a <<< 1 := by
  apply BitVec.eq_of_toNat_eq
  simp only [shiftLeft, BitVec.toNat_ofNat, BitVec.toNat_shiftLeft, Nat.shiftLeft_eq]
  omega

theorem shiftedOutRight_toNat (a : Byte) : (flagByte (shiftedOutRight a)).toNat = a.toNat % 2 := by
  rw [flagByte_toNat, shiftedOutRight, BitVec.getLsbD, Nat.testBit_zero]
  rcases Nat.mod_two_eq_zero_or_one a.toNat with h | h <;> simp [h]

theorem shiftedOutLeft_toNat (a : Byte) : (flagByte (shiftedOutLeft a)).toNat = a.toNat / 128 := by
  have := a.isLt
  rw [flagByte_toNat, shiftedOutLeft, BitVec.getLsbD, Nat.testBit_eq_decide_div_mod_eq]
  simp only [decide_eq_true_eq]
  split <;> omega

/-! ## The call stack -/

/-- A push: the entry at SP written and SP one more, or overflow with a full stack. -/
theorem push_cases (s : State) (w : Word) :
    (∃ (h : s.sp.val < 16) (k : Fin 17), k.val = s.sp.val + 1 ∧ s.push w = .ok (s.setStack (s.stack.set s.sp.val w) k)) ∨
    (s.sp.val = 16 ∧ s.push w = .error .stackOverflow) := by
  unfold State.push
  split
  · exact .inl ⟨‹_›, _, rfl, rfl⟩
  · exact .inr ⟨by omega, rfl⟩

/-- A pop: the topmost live entry and SP one less, the entries as they were; or underflow with an empty stack. -/
theorem pop_cases (s : State) :
    (∃ (j : Fin 16) (k : Fin 17), s.sp.val = j.val + 1 ∧ k.val = j.val ∧
      s.pop = .ok (s.stack[j.val], s.setStack s.stack k)) ∨
    (s.sp.val = 0 ∧ s.pop = .error .stackUnderflow) := by
  unfold State.pop
  split
  · exact .inl ⟨⟨s.sp.val - 1, by omega⟩, _, by show s.sp.val = s.sp.val - 1 + 1; omega, rfl, rfl⟩
  · exact .inr ⟨by omega, rfl⟩

/-! ## Memory accesses -/

theorem memRead_cases (s : State) (base n : Nat) :
    ((n = 0 ∨ base + (n - 1) ≤ 0xFFF) ∧ s.memRead base n = .ok (s.loadBytes base n)) ∨
      (¬(n = 0 ∨ base + (n - 1) ≤ 0xFFF) ∧ s.memRead base n = .error (.addressOutOfRange (max base 0x1000))) := by
  unfold State.memRead
  rcases firstInvalid_cases base n with ⟨h, h'⟩ | ⟨h, h'⟩
  · exact .inl ⟨h', by rw [h]⟩
  · exact .inr ⟨by omega, by rw [h]⟩

theorem memWrite_cases (s : State) (base : Nat) (bs : List Byte) :
    ((bs.length = 0 ∨ base + (bs.length - 1) ≤ 0xFFF) ∧ s.memWrite base bs = .ok (s.storeBytes base bs)) ∨
      (¬(bs.length = 0 ∨ base + (bs.length - 1) ≤ 0xFFF) ∧
        s.memWrite base bs = .error (.addressOutOfRange (max base 0x1000))) := by
  unfold State.memWrite
  rcases firstInvalid_cases base bs.length with ⟨h, h'⟩ | ⟨h, h'⟩
  · exact .inl ⟨h', by rw [h]⟩
  · exact .inr ⟨by omega, by rw [h]⟩

@[simp] theorem loadBytes_length (s : State) (a n : Nat) : (s.loadBytes a n).length = n := by simp [State.loadBytes]

@[simp] theorem loadBytes_getElem (s : State) (a n k : Nat) (h : k < (s.loadBytes a n).length) :
    (s.loadBytes a n)[k] = s.loadByte (a + k) := by simp [State.loadBytes]

@[simp] theorem regsUpTo_length (s : State) (x : Reg) : (s.regsUpTo x).length = x.val + 1 := by
  simp [State.regsUpTo]

@[simp] theorem regsUpTo_getElem (s : State) (x : Reg) (k : Nat) (h : k < (s.regsUpTo x).length) :
    (s.regsUpTo x)[k] = s.readV ⟨k, by rw [regsUpTo_length] at h; omega⟩ := by
  simp [State.regsUpTo, State.readV]

@[simp] theorem readV_loadRegs (s : State) (base : Nat) (x r : Reg) :
    (s.loadRegs base x).readV r = if r ≤ x then s.loadByte (base + r.val) else s.readV r := by
  simp [State.loadRegs, State.readV]

@[simp] theorem bcdDigits_length (v : Byte) : (bcdDigits v).length = 3 := rfl

/-! ## The keypad -/

/-- A key number: the key itself up to 15; above, a fault or the low nibble, by KEY_INDEX. -/
theorem keyIndex_cases (s : State) (v : Byte) :
    (∃ k : Fin 16, s.keyIndex v = .ok k ∧
      (v.toNat = k.val ∨ (s.cfg.keyIndex = .lowNibble ∧ 15 < v.toNat ∧ v.toNat % 16 = k.val))) ∨
    (15 < v.toNat ∧ s.cfg.keyIndex = .fault ∧ s.keyIndex v = .error (.keyIndexOutOfRange v)) := by
  unfold State.keyIndex
  split
  · exact .inl ⟨_, rfl, .inl rfl⟩
  · rename_i h
    cases hk : s.cfg.keyIndex with
    | fault => exact .inr ⟨by omega, rfl, rfl⟩
    | lowNibble =>
      refine .inl ⟨_, rfl, .inr ⟨rfl, by omega, ?_⟩⟩
      show v.toNat % 16 = (v.extractLsb' 0 4).toNat
      simp

theorem lowestKey_none {k : Keys} : lowestKey k = none ↔ ∀ j : Fin 16, k.getLsbD j.val = false := by
  simp [lowestKey, List.find?_eq_none]

/-- The key found is in the set, and no lower key is. -/
theorem lowestKey_some {k : Keys} {j : Fin 16} :
    lowestKey k = some j ↔ k.getLsbD j.val = true ∧ ∀ i : Fin 16, i < j → k.getLsbD i.val = false := by
  constructor
  · intro h
    refine ⟨by simpa using List.find?_some h, fun i hi => ?_⟩
    have h' := (List.find?_eq_some_iff_getElem.mp h).2
    obtain ⟨n, hn, hj, hlt⟩ := h'
    have hnj : n = j.val := by
      have := congrArg Fin.val hj
      simpa using this
    have := hlt i.val (by omega)
    simpa using this
  · rintro ⟨hj, hlow⟩
    cases h : lowestKey k with
    | none => rw [lowestKey_none.mp h j] at hj; cases hj
    | some i =>
      have hi : k.getLsbD i.val = true := by simpa using List.find?_some h
      have hmin := (List.find?_eq_some_iff_getElem.mp h).2
      obtain ⟨n, hn, hin, hlt⟩ := hmin
      have hni : n = i.val := by
        have := congrArg Fin.val hin
        simpa using this
      rcases lt_trichotomy i j with h1 | h1 | h1
      · rw [hlow i h1] at hi; cases hi
      · rw [h1]
      · have h4 : k.getLsbD j.val = false := by simpa using hlt j.val (by omega)
        rw [hj] at h4; cases h4

theorem newPresses_getLsbD (now b : Keys) (j : Fin 16) :
    (newPresses now b).getLsbD j.val = (now.getLsbD j.val && !(b.getLsbD j.val)) := by
  simp [newPresses]

/-! ## The fetch -/

/-- The fetch: the big-endian word at PC, or the fault of R92. -/
theorem fetchWord_cases (s : State) :
    (s.pc.toNat < 0xFFF ∧ fetchWord s = .ok (s.wordAt s.pc.toNat)) ∨
      (0xFFF ≤ s.pc.toNat ∧ fetchWord s = .error (.addressOutOfRange (max s.pc.toNat 0x1000))) := by
  unfold fetchWord
  rcases firstInvalid_cases s.pc.toNat 2 with ⟨h, h'⟩ | ⟨h, h'⟩
  · exact .inl ⟨by omega, by rw [h]⟩
  · exact .inr ⟨by omega, by rw [h]⟩

end Sys2Proof.Machine
end

