-- ==== Sys2Proof/Laws/Exec.lean ====
section
/-! SUPPORT. What each instruction's tick ends in: the state it leaves, or its fault (60_exceptions.md R215). The other
laws take these apart; no later proof unfolds a meaning. -/

namespace Sys2Proof.Machine

variable (s : State)

/-! ## Instructions without a fault -/

theorem exec_cls : exec .cls s = .next (s.advance.setFb Frame.clear) := rfl
theorem exec_jp (nnn : Addr12) : exec (.jp nnn) s = .next (s.advance.setPc nnn.toNat) := rfl
theorem exec_jpV0 (nnn : Addr12) :
    exec (.jpV0 nnn) s = .next (s.advance.setPc (nnn.toNat + (s.readV 0).toNat)) := rfl
theorem exec_seImm (x : Reg) (nn : Byte) : exec (.seImm x nn) s = .next (s.advance.skipIf (s.readV x == nn)) := rfl
theorem exec_sneImm (x : Reg) (nn : Byte) : exec (.sneImm x nn) s = .next (s.advance.skipIf (s.readV x != nn)) := rfl
theorem exec_seReg (x y : Reg) : exec (.seReg x y) s = .next (s.advance.skipIf (s.readV x == s.readV y)) := rfl
theorem exec_sneReg (x y : Reg) : exec (.sneReg x y) s = .next (s.advance.skipIf (s.readV x != s.readV y)) := rfl
theorem exec_ldImm (x : Reg) (nn : Byte) : exec (.ldImm x nn) s = .next (s.advance.writeV x nn) := rfl
theorem exec_addImm (x : Reg) (nn : Byte) :
    exec (.addImm x nn) s = .next (s.advance.writeV x (addBytes (s.readV x) nn)) := rfl
theorem exec_ldReg (x y : Reg) : exec (.ldReg x y) s = .next (s.advance.writeV x (s.readV y)) := rfl
theorem exec_orReg (x y : Reg) : exec (.orReg x y) s = .next (s.advance.writeV x (s.readV x ||| s.readV y)) := rfl
theorem exec_andReg (x y : Reg) : exec (.andReg x y) s = .next (s.advance.writeV x (s.readV x &&& s.readV y)) := rfl
theorem exec_xorReg (x y : Reg) : exec (.xorReg x y) s = .next (s.advance.writeV x (s.readV x ^^^ s.readV y)) := rfl
theorem exec_addReg (x y : Reg) : exec (.addReg x y) s =
    .next (s.advance.writeResultFlag x (addBytes (s.readV x) (s.readV y)) (carry (s.readV x) (s.readV y))) := rfl
theorem exec_sub (x y : Reg) : exec (.sub x y) s =
    .next (s.advance.writeResultFlag x (subBytes (s.readV x) (s.readV y)) (noBorrow (s.readV x) (s.readV y))) := rfl
theorem exec_subn (x y : Reg) : exec (.subn x y) s =
    .next (s.advance.writeResultFlag x (subBytes (s.readV y) (s.readV x)) (noBorrow (s.readV y) (s.readV x))) := rfl
theorem exec_shr (x y : Reg) : exec (.shr x y) s =
    .next (s.advance.writeResultFlag x (shiftRight (s.shiftOperand x y)) (shiftedOutRight (s.shiftOperand x y))) := rfl
theorem exec_shl (x y : Reg) : exec (.shl x y) s =
    .next (s.advance.writeResultFlag x (shiftLeft (s.shiftOperand x y)) (shiftedOutLeft (s.shiftOperand x y))) := rfl
theorem exec_rnd (x : Reg) (nn : Byte) :
    exec (.rnd x nn) s = .next (s.advance.draw.2.writeV x (Config.freeByte s.draws &&& nn)) := rfl
theorem exec_ldI (nnn : Addr12) : exec (.ldI nnn) s = .next (s.advance.setI (nnn.setWidth 16)) := rfl
theorem exec_addIVx (x : Reg) : exec (.addIVx x) s = .next (s.advance.setI (s.indexSum (s.readV x))) := rfl
theorem exec_ldFVx (x : Reg) : exec (.ldFVx x) s = .next (s.advance.setI (glyphAddr (s.readV x))) := rfl
theorem exec_ldVxDt (x : Reg) : exec (.ldVxDt x) s = .next (s.advance.writeV x s.dt) := rfl
theorem exec_ldDtVx (x : Reg) : exec (.ldDtVx x) s = .next (s.advance.setDt (s.readV x)) := rfl
theorem exec_ldStVx (x : Reg) : exec (.ldStVx x) s = .next (s.advance.setSt (s.readV x)) := rfl
theorem exec_ldVxK (x : Reg) :
    exec (.ldVxK x) s = .next ((s.advance.setPc s.pc.toNat).setMode (.awaitingKey x s.keys)) := rfl

/-! ## Instructions with a fault -/

theorem exec_call (nnn : Addr12) :
    (∃ (h : s.sp.val < 16) (k : Fin 17), k.val = s.sp.val + 1 ∧ exec (.call nnn) s = .next
      ((s.advance.setStack (s.stack.set s.sp.val (pcValue (s.pc.toNat + 2))) k).setPc nnn.toNat)) ∨
    (s.sp.val = 16 ∧ exec (.call nnn) s = .next (s.takeFault .stackOverflow (some (encode (.call nnn))))) := by
  simp only [exec, execCall]
  rcases push_cases s.advance s.advance.pc with ⟨h, k, h1, h2⟩ | ⟨h, h1⟩
  · exact .inl ⟨h, k, h1, perform_ok (by rw [h2]; rfl)⟩
  · exact .inr ⟨h, perform_error (by rw [h1])⟩

theorem exec_ret :
    (∃ (j : Fin 16) (k : Fin 17), s.sp.val = j.val + 1 ∧ k.val = j.val ∧ exec .ret s = .next
      ((s.advance.setStack s.stack k).setPc (s.stack[j.val]).toNat)) ∨
    (s.sp.val = 0 ∧ exec .ret s = .next (s.takeFault .stackUnderflow (some (encode .ret)))) := by
  simp only [exec, execRet]
  rcases pop_cases s.advance with ⟨j, k, h1, h2, h3⟩ | ⟨h, h1⟩
  · exact .inl ⟨j, k, h1, h2, perform_ok (by rw [h3]; rfl)⟩
  · exact .inr ⟨h, perform_error (by rw [h1])⟩

/-- The state Dxyn leaves when its sprite's addresses are valid. -/
def drawn (x y : Reg) (n : Fin 16) : State :=
  let r := drawRows ((s.readV x).toNat % 64) ((s.readV y).toNat % 32) (s.loadBytes s.i.toNat n.val) (s.fb, false)
  (s.advance.writeV vf (flagByte r.2)).setFb r.1

theorem exec_drw (x y : Reg) (n : Fin 16) :
    ((n.val = 0 ∨ s.i.toNat + (n.val - 1) ≤ 0xFFF) ∧ exec (.drw x y n) s = .next (drawn s x y n)) ∨
    (¬(n.val = 0 ∨ s.i.toNat + (n.val - 1) ≤ 0xFFF) ∧ exec (.drw x y n) s =
      .next (s.takeFault (.addressOutOfRange (max s.i.toNat 0x1000)) (some (encode (.drw x y n))))) := by
  simp only [exec, execDrw]
  rcases memRead_cases s.advance s.i.toNat n.val with ⟨h, h1⟩ | ⟨h, h1⟩
  · exact .inl ⟨h, perform_ok (by simp only [advance_i, h1]; rfl)⟩
  · exact .inr ⟨h, perform_error (by simp only [advance_i, h1])⟩

theorem exec_ldBVx (x : Reg) :
    (s.i.toNat + 2 ≤ 0xFFF ∧
      exec (.ldBVx x) s = .next (s.advance.storeBytes s.i.toNat (bcdDigits (s.readV x)))) ∨
    (0xFFF < s.i.toNat + 2 ∧ exec (.ldBVx x) s =
      .next (s.takeFault (.addressOutOfRange (max s.i.toNat 0x1000)) (some (encode (.ldBVx x))))) := by
  simp only [exec, execLdBVx]
  rcases memWrite_cases s.advance s.i.toNat (bcdDigits (s.readV x)) with ⟨h, h1⟩ | ⟨h, h1⟩
  · exact .inl ⟨by simp at h; omega, perform_ok h1⟩
  · exact .inr ⟨by simp at h; omega, perform_error h1⟩

theorem exec_ldMemVx (x : Reg) :
    (s.i.toNat + x.val ≤ 0xFFF ∧
      exec (.ldMemVx x) s = .next (s.advance.storeBytes s.i.toNat (s.regsUpTo x))) ∨
    (0xFFF < s.i.toNat + x.val ∧ exec (.ldMemVx x) s =
      .next (s.takeFault (.addressOutOfRange (max s.i.toNat 0x1000)) (some (encode (.ldMemVx x))))) := by
  simp only [exec, execLdMemVx]
  rcases memWrite_cases s.advance s.i.toNat (s.regsUpTo x) with ⟨h, h1⟩ | ⟨h, h1⟩
  · exact .inl ⟨by simp at h; omega, perform_ok h1⟩
  · exact .inr ⟨by simp at h; omega, perform_error h1⟩

theorem exec_ldVxMem (x : Reg) :
    (s.i.toNat + x.val ≤ 0xFFF ∧ exec (.ldVxMem x) s = .next (s.advance.loadRegs s.i.toNat x)) ∨
    (0xFFF < s.i.toNat + x.val ∧ exec (.ldVxMem x) s =
      .next (s.takeFault (.addressOutOfRange (max s.i.toNat 0x1000)) (some (encode (.ldVxMem x))))) := by
  simp only [exec, execLdVxMem]
  rcases firstInvalid_cases s.i.toNat (x.val + 1) with ⟨h, h1⟩ | ⟨h, h1⟩
  · exact .inl ⟨by omega, perform_ok (by simp only [advance_i, h])⟩
  · exact .inr ⟨by omega, perform_error (by simp only [advance_i, h])⟩

theorem exec_skp (x : Reg) :
    (∃ k : Fin 16, s.keyIndex (s.readV x) = .ok k ∧
      exec (.skp x) s = .next (s.advance.skipIf (s.keyPressed k))) ∨
    (15 < (s.readV x).toNat ∧ s.cfg.keyIndex = .fault ∧ exec (.skp x) s =
      .next (s.takeFault (.keyIndexOutOfRange (s.readV x)) (some (encode (.skp x))))) := by
  simp only [exec, execSkp]
  have hk : s.advance.keyIndex (s.readV x) = s.keyIndex (s.readV x) := rfl
  rcases keyIndex_cases s (s.readV x) with ⟨k, h, _⟩ | ⟨h1, h2, h3⟩
  · exact .inl ⟨k, h, perform_ok (by simp only [advance_readV, hk, h]; rfl)⟩
  · exact .inr ⟨h1, h2, perform_error (by simp only [advance_readV, hk, h3])⟩

theorem exec_sknp (x : Reg) :
    (∃ k : Fin 16, s.keyIndex (s.readV x) = .ok k ∧
      exec (.sknp x) s = .next (s.advance.skipIf (!(s.keyPressed k)))) ∨
    (15 < (s.readV x).toNat ∧ s.cfg.keyIndex = .fault ∧ exec (.sknp x) s =
      .next (s.takeFault (.keyIndexOutOfRange (s.readV x)) (some (encode (.sknp x))))) := by
  simp only [exec, execSknp]
  have hk : s.advance.keyIndex (s.readV x) = s.keyIndex (s.readV x) := rfl
  rcases keyIndex_cases s (s.readV x) with ⟨k, h, _⟩ | ⟨h1, h2, h3⟩
  · exact .inl ⟨k, h, perform_ok (by simp only [advance_readV, hk, h]; rfl)⟩
  · exact .inr ⟨h1, h2, perform_error (by simp only [advance_readV, hk, h3])⟩

end Sys2Proof.Machine
end

