-- ==== Sys2Proof/Laws/PerInstr.lean ====
section
/-! SUPPORT. The family OperandsFit, one lemma for each constructor: the operands of an instruction fit their fields
(30_encoding.md R71, R73) and its name is a row of the opcode map (R74). -/

namespace Sys2Proof.Laws.OperandsFit

/-- The operands fit their fields, and the mnemonic is a row's. -/
def Statement (i : Instr) : Prop :=
  i.operands.wellFormed = true ∧ opcodeMap.any (fun r => r.mnemonic == i.mnemonic) = true

theorem cls : Statement (.cls) := by
  refine ⟨?_, rfl⟩
  simp [Instr.operands, Operands.wellFormed]

theorem ret : Statement (.ret) := by
  refine ⟨?_, rfl⟩
  simp [Instr.operands, Operands.wellFormed]

theorem jp (nnn : Addr12) : Statement (.jp nnn) := by
  refine ⟨?_, rfl⟩
  simp [Instr.operands, Operands.wellFormed]; omega

theorem call (nnn : Addr12) : Statement (.call nnn) := by
  refine ⟨?_, rfl⟩
  simp [Instr.operands, Operands.wellFormed]; omega

theorem seImm (x : Reg) (nn : Byte) : Statement (.seImm x nn) := by
  refine ⟨?_, rfl⟩
  simp [Instr.operands, Operands.wellFormed]; omega

theorem sneImm (x : Reg) (nn : Byte) : Statement (.sneImm x nn) := by
  refine ⟨?_, rfl⟩
  simp [Instr.operands, Operands.wellFormed]; omega

theorem seReg (x y : Reg) : Statement (.seReg x y) := by
  refine ⟨?_, rfl⟩
  simp [Instr.operands, Operands.wellFormed]

theorem ldImm (x : Reg) (nn : Byte) : Statement (.ldImm x nn) := by
  refine ⟨?_, rfl⟩
  simp [Instr.operands, Operands.wellFormed]; omega

theorem addImm (x : Reg) (nn : Byte) : Statement (.addImm x nn) := by
  refine ⟨?_, rfl⟩
  simp [Instr.operands, Operands.wellFormed]; omega

theorem ldReg (x y : Reg) : Statement (.ldReg x y) := by
  refine ⟨?_, rfl⟩
  simp [Instr.operands, Operands.wellFormed]

theorem orReg (x y : Reg) : Statement (.orReg x y) := by
  refine ⟨?_, rfl⟩
  simp [Instr.operands, Operands.wellFormed]

theorem andReg (x y : Reg) : Statement (.andReg x y) := by
  refine ⟨?_, rfl⟩
  simp [Instr.operands, Operands.wellFormed]

theorem xorReg (x y : Reg) : Statement (.xorReg x y) := by
  refine ⟨?_, rfl⟩
  simp [Instr.operands, Operands.wellFormed]

theorem addReg (x y : Reg) : Statement (.addReg x y) := by
  refine ⟨?_, rfl⟩
  simp [Instr.operands, Operands.wellFormed]

theorem sub (x y : Reg) : Statement (.sub x y) := by
  refine ⟨?_, rfl⟩
  simp [Instr.operands, Operands.wellFormed]

theorem shr (x y : Reg) : Statement (.shr x y) := by
  refine ⟨?_, rfl⟩
  simp [Instr.operands, Operands.wellFormed]

theorem subn (x y : Reg) : Statement (.subn x y) := by
  refine ⟨?_, rfl⟩
  simp [Instr.operands, Operands.wellFormed]

theorem shl (x y : Reg) : Statement (.shl x y) := by
  refine ⟨?_, rfl⟩
  simp [Instr.operands, Operands.wellFormed]

theorem sneReg (x y : Reg) : Statement (.sneReg x y) := by
  refine ⟨?_, rfl⟩
  simp [Instr.operands, Operands.wellFormed]

theorem ldI (nnn : Addr12) : Statement (.ldI nnn) := by
  refine ⟨?_, rfl⟩
  simp [Instr.operands, Operands.wellFormed]; omega

theorem jpV0 (nnn : Addr12) : Statement (.jpV0 nnn) := by
  refine ⟨?_, rfl⟩
  simp [Instr.operands, Operands.wellFormed]; omega

theorem rnd (x : Reg) (nn : Byte) : Statement (.rnd x nn) := by
  refine ⟨?_, rfl⟩
  simp [Instr.operands, Operands.wellFormed]; omega

theorem drw (x y : Reg) (n : Fin 16) : Statement (.drw x y n) := by
  refine ⟨?_, rfl⟩
  simp [Instr.operands, Operands.wellFormed]

theorem skp (x : Reg) : Statement (.skp x) := by
  refine ⟨?_, rfl⟩
  simp [Instr.operands, Operands.wellFormed]

theorem sknp (x : Reg) : Statement (.sknp x) := by
  refine ⟨?_, rfl⟩
  simp [Instr.operands, Operands.wellFormed]

theorem ldVxDt (x : Reg) : Statement (.ldVxDt x) := by
  refine ⟨?_, rfl⟩
  simp [Instr.operands, Operands.wellFormed]

theorem ldVxK (x : Reg) : Statement (.ldVxK x) := by
  refine ⟨?_, rfl⟩
  simp [Instr.operands, Operands.wellFormed]

theorem ldDtVx (x : Reg) : Statement (.ldDtVx x) := by
  refine ⟨?_, rfl⟩
  simp [Instr.operands, Operands.wellFormed]

theorem ldStVx (x : Reg) : Statement (.ldStVx x) := by
  refine ⟨?_, rfl⟩
  simp [Instr.operands, Operands.wellFormed]

theorem addIVx (x : Reg) : Statement (.addIVx x) := by
  refine ⟨?_, rfl⟩
  simp [Instr.operands, Operands.wellFormed]

theorem ldFVx (x : Reg) : Statement (.ldFVx x) := by
  refine ⟨?_, rfl⟩
  simp [Instr.operands, Operands.wellFormed]

theorem ldBVx (x : Reg) : Statement (.ldBVx x) := by
  refine ⟨?_, rfl⟩
  simp [Instr.operands, Operands.wellFormed]

theorem ldMemVx (x : Reg) : Statement (.ldMemVx x) := by
  refine ⟨?_, rfl⟩
  simp [Instr.operands, Operands.wellFormed]

theorem ldVxMem (x : Reg) : Statement (.ldVxMem x) := by
  refine ⟨?_, rfl⟩
  simp [Instr.operands, Operands.wellFormed]

/-- Every instruction's operands fit. -/
theorem all (i : Instr) : Statement i := by
  cases i with
  | cls => exact cls
  | ret => exact ret
  | jp nnn => exact jp nnn
  | call nnn => exact call nnn
  | seImm x nn => exact seImm x nn
  | sneImm x nn => exact sneImm x nn
  | seReg x y => exact seReg x y
  | ldImm x nn => exact ldImm x nn
  | addImm x nn => exact addImm x nn
  | ldReg x y => exact ldReg x y
  | orReg x y => exact orReg x y
  | andReg x y => exact andReg x y
  | xorReg x y => exact xorReg x y
  | addReg x y => exact addReg x y
  | sub x y => exact sub x y
  | shr x y => exact shr x y
  | subn x y => exact subn x y
  | shl x y => exact shl x y
  | sneReg x y => exact sneReg x y
  | ldI nnn => exact ldI nnn
  | jpV0 nnn => exact jpV0 nnn
  | rnd x nn => exact rnd x nn
  | drw x y n => exact drw x y n
  | skp x => exact skp x
  | sknp x => exact sknp x
  | ldVxDt x => exact ldVxDt x
  | ldVxK x => exact ldVxK x
  | ldDtVx x => exact ldDtVx x
  | ldStVx x => exact ldStVx x
  | addIVx x => exact addIVx x
  | ldFVx x => exact ldFVx x
  | ldBVx x => exact ldBVx x
  | ldMemVx x => exact ldMemVx x
  | ldVxMem x => exact ldVxMem x

end Sys2Proof.Laws.OperandsFit
end

