-- ==== Sys2Proof/Laws/Sprite.lean ====
section
/-! SUPPORT. What drawing a sprite does to the framebuffer (41_display.md R111): the pixels under its 1 bits are toggled,
each once, and the collision flag says whether one of them was lit. -/

namespace Sys2Proof.Machine

@[simp] theorem pixel_setPixel (fb : Frame) (px qx : Fin 64) (py qy : Fin 32) (b : Bool) :
    Frame.pixel (Frame.setPixel fb px py b) qx qy = if qx = px ∧ qy = py then b else Frame.pixel fb qx qy := by
  unfold Frame.pixel Frame.setPixel
  rw [Vector.getElem_set]
  by_cases hy : qy = py
  · subst hy
    simp only [if_true, and_true, Vector.getElem_set, Fin.val_inj]
    by_cases hx : qx = px
    · simp [hx]
    · simp [hx, Ne.symm hx]
  · have : ¬ py.val = qy.val := fun h => hy (Fin.ext h.symm)
    simp [hy, this]

@[simp] theorem pixel_clear (px : Fin 64) (py : Fin 32) : Frame.pixel Frame.clear px py = false := by
  simp [Frame.pixel, Frame.clear]

/-- The pixels under the 1 bits of a row byte, left to right. -/
def rowPoints (cx cy : Nat) (b : Byte) : List (Fin 64 × Fin 32) :=
  ((List.range 8).filter (spriteBit b)).map (fun col => (wrapX (cx + col), wrapY cy))

/-- The pixels under the 1 bits of a sprite, row by row. -/
def spritePoints (cx : Nat) : Nat → List Byte → List (Fin 64 × Fin 32)
  | _, [] => []
  | cy, b :: bs => rowPoints cx cy b ++ spritePoints cx (cy + 1) bs

/-- Toggling a list of pixels in order. -/
def drawPoints (ps : List (Fin 64 × Fin 32)) (acc : Frame × Bool) : Frame × Bool :=
  ps.foldl (fun a p => drawPixel p.1 p.2 a) acc

theorem drawRow_eq (cx cy : Nat) (b : Byte) (acc : Frame × Bool) :
    drawRow cx cy b acc = drawPoints (rowPoints cx cy b) acc := by
  unfold drawRow drawPoints rowPoints
  rw [List.foldl_map, List.foldl_filter]

theorem drawRows_eq (cx cy : Nat) (bs : List Byte) (acc : Frame × Bool) :
    drawRows cx cy bs acc = drawPoints (spritePoints cx cy bs) acc := by
  induction bs generalizing cy acc with
  | nil => rfl
  | cons b bs ih =>
    rw [drawRows, ih, drawRow_eq, spritePoints, drawPoints, drawPoints, drawPoints, List.foldl_append]

/-- Toggling pixels none of which occurs twice. -/
theorem drawPoints_spec (ps : List (Fin 64 × Fin 32)) (hps : ps.Nodup) (acc : Frame × Bool) :
    (∀ px py, Frame.pixel (drawPoints ps acc).1 px py = (Frame.pixel acc.1 px py ^^ decide ((px, py) ∈ ps))) ∧
      ((drawPoints ps acc).2 = true ↔ acc.2 = true ∨ ∃ p ∈ ps, Frame.pixel acc.1 p.1 p.2 = true) := by
  induction ps generalizing acc with
  | nil => simp [drawPoints]
  | cons p ps ih =>
    obtain ⟨hp, hps⟩ := List.nodup_cons.mp hps
    obtain ⟨h1, h2⟩ := ih hps (drawPixel p.1 p.2 acc)
    have hstep : drawPoints (p :: ps) acc = drawPoints ps (drawPixel p.1 p.2 acc) := rfl
    rw [hstep]
    constructor
    · intro px py
      rw [h1]
      by_cases hq : (px, py) = p
      · subst hq
        simp [drawPixel, hp]
      · have hq' : ¬(px = p.1 ∧ py = p.2) := fun h => hq (Prod.ext h.1 h.2)
        simp [drawPixel, hq', hq]
    · rw [h2]
      have hsame : ∀ q ∈ ps, Frame.pixel (drawPixel p.1 p.2 acc).1 q.1 q.2 = Frame.pixel acc.1 q.1 q.2 := by
        intro q hq
        have hne : ¬(q.1 = p.1 ∧ q.2 = p.2) := fun h => hp (Prod.ext h.1 h.2 ▸ hq)
        simp [drawPixel, hne]
      simp only [drawPixel, Bool.or_eq_true, List.mem_cons]
      constructor
      · rintro ((h | h) | ⟨q, hq, h⟩)
        · exact .inl h
        · exact .inr ⟨p, .inl rfl, h⟩
        · exact .inr ⟨q, .inr hq, by rw [← hsame q hq]; exact h⟩
      · rintro (h | ⟨q, rfl | hq, h⟩)
        · exact .inl (.inl h)
        · exact .inl (.inr h)
        · exact .inr ⟨q, hq, by rw [← hsame q hq] at h; exact h⟩

theorem mem_rowPoints {cx cy : Nat} {b : Byte} {px : Fin 64} {py : Fin 32} :
    (px, py) ∈ rowPoints cx cy b ↔
      ∃ col, col < 8 ∧ spriteBit b col = true ∧ wrapX (cx + col) = px ∧ wrapY cy = py := by
  simp only [rowPoints, List.mem_map, List.mem_filter, List.mem_range, Prod.mk.injEq]
  constructor
  · rintro ⟨col, ⟨h1, h2⟩, h3⟩; exact ⟨col, h1, h2, h3⟩
  · rintro ⟨col, h1, h2, h3⟩; exact ⟨col, ⟨h1, h2⟩, h3⟩

theorem mem_spritePoints {cx cy : Nat} {bs : List Byte} {px : Fin 64} {py : Fin 32} :
    (px, py) ∈ spritePoints cx cy bs ↔ ∃ (row : Nat) (h : row < bs.length) (col : Nat), col < 8 ∧
      spriteBit bs[row] col = true ∧ wrapX (cx + col) = px ∧ wrapY (cy + row) = py := by
  induction bs generalizing cy with
  | nil => simp [spritePoints]
  | cons b bs ih =>
    rw [spritePoints, List.mem_append, mem_rowPoints, ih]
    constructor
    · rintro (⟨col, h1, h2, h3, h4⟩ | ⟨row, hr, col, h1, h2, h3, h4⟩)
      · exact ⟨0, by simp, col, h1, h2, h3, h4⟩
      · exact ⟨row + 1, by simpa using hr, col, h1, h2, h3, by rw [← h4]; congr 1; omega⟩
    · rintro ⟨row, hr, col, h1, h2, h3, h4⟩
      cases row with
      | zero => exact .inl ⟨col, h1, h2, h3, h4⟩
      | succ row => exact .inr ⟨row, by simpa using hr, col, h1, h2, h3, by rw [← h4]; congr 1; omega⟩

theorem nodup_rowPoints (cx cy : Nat) (b : Byte) : (rowPoints cx cy b).Nodup := by
  refine List.Nodup.map_on ?_ (List.Nodup.filter _ List.nodup_range)
  intro c1 h1 c2 h2 h
  simp only [List.mem_filter, List.mem_range] at h1 h2
  have := congrArg Fin.val (Prod.ext_iff.mp h).1
  simp only [wrapX] at this
  omega

theorem nodup_spritePoints (cx cy : Nat) (bs : List Byte) (h : bs.length ≤ 32) : (spritePoints cx cy bs).Nodup := by
  induction bs generalizing cy with
  | nil => exact List.nodup_nil
  | cons b bs ih =>
    simp only [List.length_cons] at h
    refine List.Nodup.append (nodup_rowPoints cx cy b) (ih (cy + 1) (by omega)) ?_
    rintro ⟨px, py⟩ h1 h2
    obtain ⟨_, _, _, _, hy⟩ := mem_rowPoints.mp h1
    obtain ⟨row, hr, _, _, _, _, hy'⟩ := mem_spritePoints.mp h2
    have := congrArg Fin.val (hy.trans hy'.symm)
    simp only [wrapY] at this
    omega

/-- What a sprite of at most 32 rows does: its pixels are toggled, and the flag says whether one of them was lit. -/
theorem drawRows_spec (cx cy : Nat) (bs : List Byte) (h : bs.length ≤ 32) (fb : Frame) :
    (∀ px py, Frame.pixel (drawRows cx cy bs (fb, false)).1 px py =
        (Frame.pixel fb px py ^^ decide ((px, py) ∈ spritePoints cx cy bs))) ∧
      ((drawRows cx cy bs (fb, false)).2 = true ↔
        ∃ p ∈ spritePoints cx cy bs, Frame.pixel fb p.1 p.2 = true) := by
  rw [drawRows_eq]
  have := drawPoints_spec (spritePoints cx cy bs) (nodup_spritePoints cx cy bs h) (fb, false)
  exact ⟨this.1, by simpa using this.2⟩

end Sys2Proof.Machine
end

