-- ==== Sys2Proof/Laws/Safety.lean ====
section
/-! SUPPORT. Small lemmas of the terms of Safety.lean. -/

namespace Sys2Proof.Machine

/-- The live return addresses depend on the stack and SP alone. -/
theorem stackLive_congr {s t : State} (h1 : t.stack = s.stack) (h2 : t.sp = s.sp) (h : s.stackLive) : t.stackLive := by
  intro k hk
  simp only [h1]
  exact h k (by rw [← h2]; exact hk)

/-- A push of an address keeps the entries live. -/
theorem stackLive_push {s t : State} {n : Nat} (hs : s.sp.val < 16) (h1 : t.stack = s.stack.set s.sp.val (pcValue n))
    (h2 : t.sp.val = s.sp.val + 1) (h : s.stackLive) : t.stackLive := by
  intro k hk
  simp only [h1]
  by_cases hks : k.val = s.sp.val
  · simpa [hks] using pcValue_lt n
  · have := h k (by omega)
    simpa [Ne.symm hks] using this

/-- A pop keeps the entries live. -/
theorem stackLive_pop {s t : State} (h1 : t.stack = s.stack) (h2 : t.sp.val ≤ s.sp.val) (h : s.stackLive) :
    t.stackLive := by
  intro k hk
  simp only [h1]
  exact h k (by omega)

theorem Unchanged.part {parts : List Part} {regs : List Reg} {s t : State} (h : Unchanged parts regs s t) (p : Part)
    (hp : p ∉ parts) : p.same s t := h.1 p hp

theorem Unchanged.reg {parts : List Part} {regs : List Reg} {s t : State} (h : Unchanged parts regs s t) (r : Reg)
    (hr : r ∉ regs) : t.readV r = s.readV r := h.2 r hr

/-- A pixel under the sprite, as `spriteCovers` says it and as the drawing toggles it (41_display.md R111). -/
theorem spriteCovers_iff (s : State) (x y : Reg) (n : Fin 16) (px : Fin 64) (py : Fin 32) :
    spriteCovers s x y n px py = true ↔
      (px, py) ∈ spritePoints ((s.readV x).toNat % 64) ((s.readV y).toNat % 32) (s.loadBytes s.i.toNat n.val) := by
  rw [mem_spritePoints]
  simp only [spriteCovers, Bool.and_eq_true, decide_eq_true_eq, loadBytes_length, loadBytes_getElem, spriteBit]
  have hx := px.isLt
  have hy := py.isLt
  have hn := n.isLt
  constructor
  · rintro ⟨⟨h1, h2⟩, h3⟩
    refine ⟨_, h2, _, h1, h3, Fin.ext ?_, Fin.ext ?_⟩
    · simp only [wrapX]; omega
    · simp only [wrapY]; omega
  · rintro ⟨row, hr, col, hc, hb, h1, h2⟩
    have h1 := congrArg Fin.val h1
    have h2 := congrArg Fin.val h2
    simp only [wrapX] at h1
    simp only [wrapY] at h2
    have e1 : (px.val + 64 - (s.readV x).toNat % 64) % 64 = col := by omega
    have e2 : (py.val + 32 - (s.readV y).toNat % 32) % 32 = row := by omega
    rw [e1, e2]
    exact ⟨⟨hc, hr⟩, hb⟩

end Sys2Proof.Machine
end

