-- ==== Sys2Proof/Laws/Scheduler.lean ====
section
/-! SUPPORT. What one iteration and a run of the reference scheduler can do (60_exceptions.md R230). -/

namespace Sys2Proof.Machine

@[simp] theorem Scheduler.start_cpuHz (hz : Rat) : (Scheduler.start hz).cpuHz = hz := rfl
@[simp] theorem Scheduler.start_accCpu (hz : Rat) : (Scheduler.start hz).accCpu = 0 := rfl
@[simp] theorem Scheduler.start_accTimer (hz : Rat) : (Scheduler.start hz).accTimer = 0 := rfl

variable (c : Scheduler) (dt : Rat) (rest : List Rat)

@[simp] theorem Scheduler.run_nil : c.run [] = ([], c) := rfl
@[simp] theorem Scheduler.run_cons : c.run (dt :: rest) =
    ((c.iteration dt).1 ++ ((c.iteration dt).2.run rest).1, ((c.iteration dt).2.run rest).2) := rfl

@[simp] theorem Scheduler.iteration_events : (c.iteration dt).1 =
    List.replicate (ticksDue (c.accCpu + dt) c.cpuHz) .instrTick ++
      List.replicate (ticksDue (c.accTimer + dt) timerHz) .timerTick := rfl
@[simp] theorem Scheduler.iteration_cpuHz : (c.iteration dt).2.cpuHz = c.cpuHz := rfl
@[simp] theorem Scheduler.iteration_accCpu : (c.iteration dt).2.accCpu = accAfter (c.accCpu + dt) c.cpuHz := rfl
@[simp] theorem Scheduler.iteration_accTimer : (c.iteration dt).2.accTimer = accAfter (c.accTimer + dt) timerHz := rfl

/-- The rounds of a loop are the whole periods the accumulator holds. -/
theorem ticksDue_cast {acc hz : Rat} (ha : 0 ≤ acc) (hz0 : 0 < hz) : (ticksDue acc hz : Int) = ⌊acc * hz⌋ :=
  Int.toNat_of_nonneg (Int.floor_nonneg.mpr (mul_nonneg ha hz0.le))

/-- What is left over is less than a period, and not negative. -/
theorem accAfter_bounds {acc hz : Rat} (ha : 0 ≤ acc) (hz0 : 0 < hz) : 0 ≤ accAfter acc hz ∧ accAfter acc hz < 1 / hz := by
  have h : ((ticksDue acc hz : Nat) : Rat) = (⌊acc * hz⌋ : Int) := by exact_mod_cast ticksDue_cast ha hz0
  unfold accAfter
  rw [h, sub_nonneg, sub_lt_iff_lt_add, ← add_div, div_le_iff₀ hz0, lt_div_iff₀ hz0, add_comm]
  exact ⟨Int.floor_le _, Int.lt_floor_add_one _⟩

/-- Counting from what is left over after some rounds counts the remaining ones. -/
theorem ticksDue_after {acc hz t : Rat} (ha : 0 ≤ acc) (hz0 : 0 < hz) :
    (ticksDue acc hz : Int) + ⌊(accAfter acc hz + t) * hz⌋ = ⌊(acc + t) * hz⌋ := by
  have h : ((ticksDue acc hz : Nat) : Rat) = (⌊acc * hz⌋ : Int) := by exact_mod_cast ticksDue_cast ha hz0
  rw [show (accAfter acc hz + t) * hz = (acc + t) * hz - (⌊acc * hz⌋ : Int) by
    unfold accAfter; rw [h]; field_simp; ring, Int.floor_sub_intCast, ticksDue_cast ha hz0]
  omega

end Sys2Proof.Machine
end

