-- ==== Sys2Proof/Tests/Slice0.lean ====
section
/-! SUPPORT. Tests. Expected values come from 95_test_vectors.md (the vector is named in each comment) or are worked out
by hand from the rule named; the witnesses at the end meet the hypotheses of the obligations. -/

open Sys2Proof Sys2Proof.Machine

namespace Sys2Proof.Tests

/-! ## Well-formedness: an ill-formed term for each check -/

theorem test_wf_refuses_x : (Operands.regImm 16 0).wellFormed = false ∧ (Operands.reg 16).wellFormed = false ∧
    (Operands.regReg 16 0).wellFormed = false ∧ (Operands.regRegCount 16 0 0).wellFormed = false := by decide
theorem test_wf_refuses_y : (Operands.regReg 0 16).wellFormed = false ∧
    (Operands.regRegCount 0 16 0).wellFormed = false := by decide
theorem test_wf_refuses_n : (Operands.regRegCount 0 0 16).wellFormed = false := by decide
theorem test_wf_refuses_nn : (Operands.regImm 0 256).wellFormed = false := by decide
theorem test_wf_refuses_nnn : (Operands.addr 4096).wellFormed = false := by decide
theorem test_wf_accepts_bounds : (Operands.regImm 15 255).wellFormed = true ∧ (Operands.addr 4095).wellFormed = true ∧
    (Operands.regRegCount 15 15 15).wellFormed = true := by decide
theorem test_assemble_refuses : assemble "LD_IMM" (.regImm 16 0) = none ∧ assemble "LD_IMM" (.addr 0) = none ∧
    assemble "SYS" (.addr 0) = none := by decide
theorem test_assemble : assemble "LD_IMM" (.regImm 10 0x2B) = some (.ldImm 10 0x2B) := by decide
/-- One unknown word of each group of R76 is no well-formed word (E4, E6, E7, E9, E10, E11). -/
theorem test_wf_refuses_unknown_words : wellFormedWord 0x0123 = false ∧ wellFormedWord 0x5121 = false ∧
    wellFormedWord 0x8008 = false ∧ wellFormedWord 0x9001 = false ∧ wellFormedWord 0xE09F = false ∧
    wellFormedWord 0xF000 = false := by decide

/-! ## Decoding: a word of every row, written from its bit pattern (R72, R74), and the vectors E1 to E15 -/

theorem test_decode_cls : decode 0b0000000011100000 = .known .cls := by decide
theorem test_decode_ret : decode 0b0000000011101110 = .known .ret := by decide
theorem test_decode_jp : decode 0b0001001000110100 = .known (.jp 0x234) := by decide
theorem test_decode_call : decode 0b0010001100000000 = .known (.call 0x300) := by decide
theorem test_decode_seImm : decode 0b0011001101000010 = .known (.seImm 3 0x42) := by decide
theorem test_decode_sneImm : decode 0b0100001101000010 = .known (.sneImm 3 0x42) := by decide
theorem test_decode_seReg : decode 0b0101000100100000 = .known (.seReg 1 2) := by decide
theorem test_decode_ldImm : decode 0b0110101000101011 = .known (.ldImm 10 0x2B) := by decide
theorem test_decode_addImm : decode 0b0111000111111111 = .known (.addImm 1 0xFF) := by decide
theorem test_decode_ldReg : decode 0b1000000100100000 = .known (.ldReg 1 2) := by decide
theorem test_decode_orReg : decode 0b1000000100100001 = .known (.orReg 1 2) := by decide
theorem test_decode_andReg : decode 0b1000000100100010 = .known (.andReg 1 2) := by decide
theorem test_decode_xorReg : decode 0b1000000100100011 = .known (.xorReg 1 2) := by decide
theorem test_decode_addReg : decode 0b1000000100100100 = .known (.addReg 1 2) := by decide
theorem test_decode_sub : decode 0b1000000100100101 = .known (.sub 1 2) := by decide
/-- E15 -/
theorem test_decode_shr : decode 0b1000101010110110 = .known (.shr 10 11) := by decide
theorem test_decode_subn : decode 0b1000000100100111 = .known (.subn 1 2) := by decide
theorem test_decode_shl : decode 0b1000000100101110 = .known (.shl 1 2) := by decide
theorem test_decode_sneReg : decode 0b1001000100100000 = .known (.sneReg 1 2) := by decide
theorem test_decode_ldI : decode 0b1010000100100011 = .known (.ldI 0x123) := by decide
theorem test_decode_jpV0 : decode 0b1011001100000000 = .known (.jpV0 0x300) := by decide
theorem test_decode_rnd : decode 0b1100000100001111 = .known (.rnd 1 0x0F) := by decide
/-- E14 -/
theorem test_decode_drw : decode 0b1101000100100000 = .known (.drw 1 2 0) := by decide
theorem test_decode_skp : decode 0b1110010110011110 = .known (.skp 5) := by decide
theorem test_decode_sknp : decode 0b1110010110100001 = .known (.sknp 5) := by decide
theorem test_decode_ldVxDt : decode 0b1111001100000111 = .known (.ldVxDt 3) := by decide
theorem test_decode_ldVxK : decode 0b1111000100001010 = .known (.ldVxK 1) := by decide
theorem test_decode_ldDtVx : decode 0b1111001000010101 = .known (.ldDtVx 2) := by decide
theorem test_decode_ldStVx : decode 0b1111001000011000 = .known (.ldStVx 2) := by decide
theorem test_decode_addIVx : decode 0b1111001000011110 = .known (.addIVx 2) := by decide
theorem test_decode_ldFVx : decode 0b1111001100101001 = .known (.ldFVx 3) := by decide
theorem test_decode_ldBVx : decode 0b1111000100110011 = .known (.ldBVx 1) := by decide
theorem test_decode_ldMemVx : decode 0b1111001001010101 = .known (.ldMemVx 2) := by decide
theorem test_decode_ldVxMem : decode 0b1111000101100101 = .known (.ldVxMem 1) := by decide
/-- E3 to E13 -/
theorem test_decode_unknown :
    ([0x00E1, 0x0123, 0x0000, 0x5121, 0x8008, 0x800F, 0x9001, 0xE09F, 0xF000, 0xF030, 0x00FD] : List Word).all
      (fun w => decode w = .unknown w) = true := by decide
theorem test_decodeBytes_truncated : decodeBytes [0x60] = .error .truncated := by rfl
/-- 20_memory.md R54: the high byte comes first. -/
theorem test_decodeTableWord : decodeTableWord 16 0x2300 = some (.call 0x300) ∧ decodeTableWord 16 0xFFF0 = none := by
  decide
/-- 30_encoding.md R79; E14 and P5 of the vectors -/
theorem test_asmText : (Instr.drw 1 2 0).asmText = "DRW V1, V2, 0" ∧ (Instr.shr 15 0).asmText = "SHR VF" ∧
    (Instr.jp 0x20A).asmText = "JP 20A" ∧ (Instr.ldImm 15 2).asmText = "LD VF, 0x02" := by decide

/-- Program P5, its bytes and the text of its data word -/
theorem test_programBytes :
    programBytes [.instr (.ldImm 15 0xFF), .instr (.addReg 15 15), .dw 0xFFF0, .instr (.ldImm 15 2), .instr (.shr 15 0),
      .instr (.jp 0x20A)] = [0x6F, 0xFF, 0x8F, 0xF4, 0xFF, 0xF0, 0x6F, 0x02, 0x8F, 0x06, 0x12, 0x0A] ∧
    (AsmLine.dw 0xFFF0).text = "DW 0xFFF0" := by decide

/-! ## One tick -/

/-- The start state of the vectors: reset, with the default configuration. -/
def base : State := State.reset

/-- The start state under another configuration. -/
def under (f : Config → Config) : State := State.construct (f Config.default)

/-- One step with the word under test at PC. -/
def tick (w : Nat) (s : State) : Outcome := step (s.withFetchWord 16 w)

/-- A reading of the next state. -/
def look {α : Type} (f : State → α) : Outcome → Option α
  | .next t => some (f t)
  | _ => none

/-- The columns of the lit pixels of each row. -/
def lit (fb : Frame) : List (List Nat) := fb.toList.map fun row => row.toList.findIdxs id

/-- The mode after a fault at 0x200 with a word. -/
def haltedAt (f : Fault) (w : Word) : Mode := .halted ⟨f, 0x200, some w⟩

/-- A1 -/
theorem test_ldImm : look (fun t => (t.readV 10, t.pc)) (tick 0x6A2B base) = some (0x2B, 0x202) := by decide
/-- A2 -/
theorem test_addImm_no_carry : look (fun t => (t.readV 1, t.readV vf)) (tick 0x71FF (base.writeV 1 1)) = some (0, 0) := by
  decide
/-- A3 -/
theorem test_addImm_vf : look (fun t => t.readV vf) (tick 0x7F01 (base.writeV vf 0xFF)) = some 0 := by decide
/-- A4 -/
theorem test_ldReg : look (fun t => t.readV 1) (tick 0x8120 (base.writeV 2 0x99)) = some 0x99 := by decide

/-- The start state of A5, A6 and A7. -/
def logicStart : State := ((base.writeV 1 0x3C).writeV 2 0x0F).writeV vf 0x55

/-- A5 -/
theorem test_orReg : look (fun t => (t.readV 1, t.readV vf)) (tick 0x8121 logicStart) = some (0x3F, 0x55) := by decide
/-- A6 -/
theorem test_andReg : look (fun t => (t.readV 1, t.readV vf)) (tick 0x8122 logicStart) = some (0x0C, 0x55) := by decide
/-- A7 -/
theorem test_xorReg : look (fun t => (t.readV 1, t.readV vf)) (tick 0x8123 logicStart) = some (0x33, 0x55) := by decide
/-- A9 -/
theorem test_addReg_carry : look (fun t => (t.readV 1, t.readV vf))
    (tick 0x8124 ((base.writeV 1 0xFF).writeV 2 1)) = some (0, 1) := by decide
/-- A13, under both orders -/
theorem test_addReg_vf : look (fun t => t.readV vf) (tick 0x8F14 ((base.writeV vf 0x10).writeV 1 0x20)) = some 0 ∧
    look (fun t => t.readV vf) (tick 0x8F14
      (((under fun c => { c with vfOrder := .resultLast }).writeV vf 0x10).writeV 1 0x20)) = some 0x30 := by decide
/-- A16 -/
theorem test_sub_equal : look (fun t => (t.readV 1, t.readV vf))
    (tick 0x8125 ((base.writeV 1 0x42).writeV 2 0x42)) = some (0, 1) := by decide
/-- A17 -/
theorem test_sub_borrow : look (fun t => (t.readV 1, t.readV vf)) (tick 0x8125 (base.writeV 2 1)) = some (0xFF, 0) := by
  decide
/-- A19 -/
theorem test_shr : look (fun t => (t.readV 1, t.readV vf))
    (tick 0x8126 ((base.writeV 1 5).writeV 2 0xFF)) = some (2, 1) := by decide
/-- A23 -/
theorem test_shr_vy : look (fun t => (t.readV 1, t.readV vf)) (tick 0x8126
    (((under fun c => { c with shiftSource := .vy }).writeV 1 5).writeV 2 0x80)) = some (0x40, 0) := by decide
/-- A25 -/
theorem test_subn : look (fun t => (t.readV 1, t.readV vf))
    (tick 0x8127 ((base.writeV 1 0x10).writeV 2 0x30)) = some (0x20, 1) := by decide
/-- A26 -/
theorem test_subn_borrow : look (fun t => (t.readV 1, t.readV vf)) (tick 0x8127 (base.writeV 1 1)) = some (0xFF, 0) := by
  decide
/-- A28 -/
theorem test_shl : look (fun t => (t.readV 1, t.readV vf)) (tick 0x810E (base.writeV 1 0x81)) = some (2, 1) := by decide
/-- A31 -/
theorem test_shl_vy : look (fun t => (t.readV 1, t.readV vf)) (tick 0x812E
    ((under fun c => { c with shiftSource := .vy }).writeV 2 0xC0)) = some (0x80, 1) := by decide
/-- A33: any draw -/
theorem test_rnd_mask : look (fun t => t.readV 1) (tick 0xC100 base) = some 0 := by
  show some (Config.freeByte 0 &&& 0#8) = some 0
  simp
/-- R152: each execution makes a new draw. -/
theorem test_rnd_draws : look (fun t => (t.draws, t.pc)) (tick 0xC1FF base) = some (1, 0x202) := by decide

/-- C2 -/
theorem test_jp : look (fun t => t.pc) (tick 0x1301 base) = some 0x301 := by decide
/-- C14 -/
theorem test_call : look (fun t => (t.pc, t.sp, t.stack[15])) (tick 0x2300 { base with sp := 15 })
    = some (0x300, 16, 0x202) := by decide
/-- C15 -/
theorem test_call_overflow : look (fun t => (t.mode, t.pc, t.sp)) (tick 0x2300 { base with sp := 16 })
    = some (haltedAt .stackOverflow 0x2300, 0x200, 16) := by decide
/-- C4, C5 -/
theorem test_seImm : look (fun t => t.pc) (tick 0x3342 (base.writeV 3 0x42)) = some 0x204 ∧
    look (fun t => t.pc) (tick 0x3343 (base.writeV 3 0x42)) = some 0x202 := by decide
/-- C17: a taken skip wraps -/
theorem test_seImm_wraps : look (fun t => t.pc) (tick 0x3000 (base.setPc 0xFFC)) = some 0 := by decide
/-- C6, C7 -/
theorem test_sneImm : look (fun t => t.pc) (tick 0x4342 (base.writeV 3 0x42)) = some 0x202 ∧
    look (fun t => t.pc) (tick 0x4300 (base.writeV 3 0x42)) = some 0x204 := by decide
/-- C8 -/
theorem test_seReg : look (fun t => t.pc) (tick 0x5120 ((base.writeV 1 7).writeV 2 7)) = some 0x204 := by decide
/-- C10 -/
theorem test_sneReg : look (fun t => t.pc) (tick 0x9120 ((base.writeV 1 7).writeV 2 8)) = some 0x204 ∧
    look (fun t => t.pc) (tick 0x9120 ((base.writeV 1 7).writeV 2 7)) = some 0x202 := by decide
/-- C11 -/
theorem test_ret : look (fun t => (t.pc, t.sp, t.stack[0]))
    (tick 0x00EE (base.setStack (base.stack.set 0 0x204) 1)) = some (0x204, 0, 0x204) := by decide
/-- C13 -/
theorem test_ret_underflow : look (fun t => (t.mode, t.pc, t.sp)) (tick 0x00EE base)
    = some (haltedAt .stackUnderflow 0x00EE, 0x200, 0) := by decide
/-- C19 -/
theorem test_jpV0_wraps : look (fun t => t.pc) (tick 0xBFFF (base.writeV 0 2)) = some 1 := by decide
/-- C20 -/
theorem test_jpV0_not_vx : look (fun t => t.pc) (tick 0xB500 (base.writeV 5 0x40)) = some 0x500 := by decide
/-- C21 -/
theorem test_cls : look (fun t => (Frame.pixel t.fb 3 4, t.readV vf))
    (tick 0x00E0 ((base.setFb (Frame.setPixel base.fb 3 4 true)).writeV vf 1)) = some (false, 1) := by decide

/-- M1 -/
theorem test_ldI : look (fun t => t.i) (tick 0xA123 (base.setI 0x1234)) = some 0x0123 := by decide
/-- M3 -/
theorem test_addIVx : look (fun t => t.i) (tick 0xF21E ((base.setI 0xFFF).writeV 2 1)) = some 0x1000 ∧
    look (fun t => t.i) (tick 0xF21E (((under fun c => { c with indexAddWrap := .mod4096 }).setI 0xFFF).writeV 2 1))
      = some 0 := by decide
/-- M4, and VF unchanged as in M5 -/
theorem test_addIVx_wraps : look (fun t => (t.i, t.readV vf))
    (tick 0xF21E (((base.setI 0xFFFF).writeV 2 1).writeV vf 0x77)) = some (0, 0x77) := by decide
/-- M8 -/
theorem test_ldFVx : look (fun t => t.i) (tick 0xF329 (base.writeV 3 0xFF)) = some 0x54B := by decide
/-- M9 -/
theorem test_ldBVx : look (fun t => (t.loadBytes 0x300 3, t.i)) (tick 0xF133 ((base.setI 0x300).writeV 1 0xFF))
    = some ([2, 5, 5], 0x300) := by decide
/-- M12 -/
theorem test_ldBVx_fault : look (fun t => (t.mode, t.loadBytes 0xFFE 2)) (tick 0xF133 ((base.setI 0xFFE).writeV 1 7))
    = some (haltedAt (.addressOutOfRange 0x1000) 0xF133, [0, 0]) := by decide
/-- M14: V3 is not stored -/
theorem test_ldMemVx : look (fun t => (t.loadBytes 0x300 4, t.i))
    (tick 0xF255 (((((base.setI 0x300).writeV 0 1).writeV 1 2).writeV 2 3).writeV 3 4))
    = some ([1, 2, 3, 0], 0x300) := by decide
/-- M16 -/
theorem test_ldMemVx_fault : look (fun t => (t.mode, t.mem)) (tick 0xFF55 ((base.setI 0xFF1).writeV 0 9))
    = some (haltedAt (.addressOutOfRange 0x1000) 0xFF55, [(0x200, 0xFF), (0x201, 0x55)]) := by decide
/-- M20 -/
theorem test_ldVxMem : look (fun t => t.v) (tick 0xFF65 (base.setI 0x50)) = some
    #v[0xF0, 0x90, 0x90, 0x90, 0xF0, 0x20, 0x60, 0x20, 0x20, 0x70, 0xF0, 0x10, 0xF0, 0x80, 0xF0, 0xF0] := by decide
/-- M18 -/
theorem test_ldVxMem_fault : look (fun t => (t.mode, t.readV 0)) (tick 0xF065 ((base.setI 0x1234).writeV 0 5))
    = some (haltedAt (.addressOutOfRange 0x1234) 0xF065, 5) := by decide

/-- D1: glyph 0 at the top left, 14 pixels -/
theorem test_drw : look (fun t => ((lit t.fb).take 6, ((lit t.fb).map List.length).sum, t.readV vf))
    (tick 0xD015 (base.setI 0x50))
    = some ([[0, 1, 2, 3], [0, 3], [0, 3], [0, 3], [0, 1, 2, 3], []], 14, 0) := by decide
/-- D8: VF is read as x before it is written -/
theorem test_drw_vf : look (fun t => (Frame.pixel t.fb 8 0, Frame.pixel t.fb 7 0, t.readV vf))
    (tick 0xDF11 (((base.setI 0x300).writeV vf 8).storeByte 0x300 0x80)) = some (true, false, 0) := by decide
/-- D6 -/
theorem test_drw_fault : look (fun t => (t.mode, t.readV vf)) (tick 0xD01F ((base.setI 0xFF2).writeV vf 5))
    = some (haltedAt (.addressOutOfRange 0x1000) 0xD01F, 5) := by decide

/-- The start state of K1 and K4: V5 = A, key A pressed. -/
def keyStart : State := setKeys 0x0400 (base.writeV 5 0x0A)

/-- K1, and K2 with no key pressed -/
theorem test_skp : look (fun t => t.pc) (tick 0xE59E keyStart) = some 0x204 ∧
    look (fun t => t.pc) (tick 0xE59E (setKeys 0 keyStart)) = some 0x202 := by decide
/-- K5, under both policies -/
theorem test_skp_index : look (fun t => t.mode) (tick 0xE59E (base.writeV 5 0x1A))
      = some (haltedAt (.keyIndexOutOfRange 0x1A) 0xE59E) ∧
    look (fun t => t.pc) (tick 0xE59E (setKeys 0x0400
      ((under fun c => { c with keyIndex := .lowNibble }).writeV 5 0x1A))) = some 0x204 := by decide
/-- K4, and K3 with no key pressed -/
theorem test_sknp : look (fun t => t.pc) (tick 0xE5A1 keyStart) = some 0x202 ∧
    look (fun t => t.pc) (tick 0xE5A1 (setKeys 0 keyStart)) = some 0x204 := by decide
/-- K6 -/
theorem test_ldVxDt : look (fun t => (t.readV 3, t.dt)) (tick 0xF307 (base.setDt 0x1E)) = some (0x1E, 0x1E) := by decide
/-- K7 -/
theorem test_ldDtVx : look (fun t => t.dt) (tick 0xF215 (base.writeV 2 0x3C)) = some 0x3C := by decide
/-- K8 -/
theorem test_ldStVx : look (fun t => (t.st, soundPort t)) (tick 0xF218 (base.writeV 2 5)) = some (5, true) := by decide
/-- K10 -/
theorem test_ldVxK : look (fun t => (t.pc, t.mode, t.readV 1)) (tick 0xF10A (setKeys 0x0010 (base.setPc 0x300)))
    = some (0x300, .awaitingKey 1 0x0010, 0) := by decide

/-- Awaiting a key with a baseline and a keypad, at PC = 0x300. -/
def waiting (x : Reg) (baseline keys : Keys) : State := setKeys keys ((base.setPc 0x300).setMode (.awaitingKey x baseline))

/-- K13 and K14: the lowest newly pressed key -/
theorem test_poll_new : look (fun t => (t.readV 1, t.pc, t.mode)) (step (waiting 1 0x0010 0x0014))
      = some (2, 0x302, .running) ∧
    look (fun t => (t.readV 1, t.pc)) (step (waiting 1 0 0x0208)) = some (3, 0x302) := by decide
/-- K12 and K15: no new press, and the baseline follows the keypad -/
theorem test_poll_none : look (fun t => (t.mode, t.pc)) (step (waiting 1 0x0010 0x0010))
      = some (.awaitingKey 1 0x0010, 0x300) ∧
    look (fun t => (t.mode, t.pc)) (step (waiting 1 0x0010 0)) = some (.awaitingKey 1 0, 0x300) := by decide

/-- The step of one scheduled event. -/
def event (e : Event) (s : State) : Outcome := step { s with schedule := [e] }

/-- K17 -/
theorem test_timerTick : look (fun t => (t.dt, t.st, t.mode)) (event .timerTick (((waiting 1 0 0).setDt 5).setSt 1))
    = some (4, 0, .awaitingKey 1 0) := by decide
/-- T2 -/
theorem test_timerTick_zero : look (fun t => (t.dt, t.st)) (event .timerTick base) = some (0, 0) := by decide
/-- T5: 1/60 s at 600 Hz -/
theorem test_scheduler : ((Scheduler.start 600).iteration (1 / 60)).1
    = List.replicate 10 .instrTick ++ [.timerTick] := by decide +kernel
/-- R230: a sixtieth of a second at 600 Hz cut into two iterations issues the same ticks, the timer tick in the second. -/
theorem test_scheduler_run : ((Scheduler.start 600).run [1 / 120, 1 / 120]).1
    = List.replicate 10 .instrTick ++ [.timerTick] := by decide +kernel
/-- X1 -/
theorem test_unknown_word : look (fun t => (t.pc, t.reports, t.mode)) (tick 0xFFF0 base)
    = some (0x202, [⟨0xFFF0, 0x200⟩], .running) := by decide
/-- X2 -/
theorem test_unknown_word_halt : look (fun t => (t.pc, t.reports, t.mode))
    (tick 0x0000 (under fun c => { c with unknownPolicy := .halt }))
    = some (0x200, [], haltedAt .unknownInstruction 0x0000) := by decide
/-- X3 -/
theorem test_fetch_fault : look (fun t => (t.pc, t.mode)) (step (base.setPc 0xFFF))
    = some (0xFFF, .halted ⟨.addressOutOfRange 0x1000, 0xFFF, none⟩) := by decide
/-- X4 -/
theorem test_fetch_last_word : look (fun t => (t.readV 0, t.pc)) (tick 0x6011 (base.setPc 0xFFE)) = some (0x11, 0) := by
  decide

/-- A halted machine with DT = 3. -/
def halted : State := (base.setDt 3).setMode (haltedAt .stackUnderflow 0x00EE)

/-- X5 -/
theorem test_halted : look (fun t => (t.dt, t.mode, t.pc)) (step halted) = some (3, halted.mode, 0x200) := by decide
/-- X6 -/
theorem test_halted_timer : look (fun t => (t.dt, t.mode)) (event .timerTick halted) = some (2, halted.mode) := by decide
/-- X7 -/
theorem test_reset : look (fun t => (t.pc, t.readV 3, t.mode, t.loadByte 0x200))
    (event .reset ((halted.writeV 3 9).storeByte 0x200 0x60)) = some (0x200, 0, .running, 0) := by decide
/-- L1 -/
theorem test_load : look (fun t => (t.loadBytes 0x200 5, t.pc, t.readV 3, t.loadResults))
    (event (.load [0x60, 0x01, 0x12, 0x02]) ((base.writeV 3 9).setPc 0x456))
    = some ([0x60, 0x01, 0x12, 0x02, 0], 0x200, 9, [.loaded]) := by decide
/-- L3 -/
theorem test_load_too_large : look (fun t => (t.pc, t.mem, t.loadResults))
    (event (.load (List.replicate 3585 1)) (base.setPc 0x456))
    = some (0x456, [], [.rejected (.programTooLarge 3585)]) := by decide +kernel
/-- X8, tick 1: the store overwrites its own word -/
theorem test_self_modifying : look (fun t => (t.loadBytes 0x200 4, t.wordAt 0x202, t.pc))
    (tick 0xF255 ((((base.setI 0x200).writeV 0 0x12).writeV 1 0x34).writeV 2 0x60))
    = some ([0x12, 0x34, 0x60, 0], 0x6000, 0x202) := by decide

/-! ## Witnesses: states and operands that meet the hypotheses of the obligations -/

/-- A state that meets the invariant with a live stack entry, a listed byte and an awaited key. -/
def busy : State :=
  { (waiting 1 0 0x0080) with stack := base.stack.set 0 0x204, sp := 1, mem := [(0x300, 7)] }

theorem busy_inv : busy.Inv := ⟨by decide, by decide, by unfold State.stackLive; decide, by decide⟩

theorem witness_DecodedWordIsItsEncoding : decode 0x00EE = .known .ret ∧ decode 0xFF65 = .known (.ldVxMem 15) := by decide
/-- Each group of R76 at the edges of its ranges, with a neighbour that decodes. -/
theorem witness_UnknownWordsAreTheTabled :
    ([0x00DF, 0x00E1, 0x00ED, 0x00EF, 0x5001, 0x8008, 0x800D, 0x800F, 0x900F, 0xE09D, 0xEFA2, 0xF008, 0xFFFF] : List Word).all
      (fun w => decode w = .unknown w) = true ∧
    ([0x00E0, 0x00EE, 0x5000, 0x8007, 0x800E, 0x9FF0, 0xE09E, 0xEFA1, 0xF007, 0xFF65] : List Word).all
      (fun w => decode w ≠ .unknown w) = true := by decide
theorem witness_OpcodeMapDecidesDecode :
    ⟨"CLS", 0x00E0, 0xFFFF⟩ ∈ opcodeMap ∧ OpcodeRow.covers ⟨"CLS", 0x00E0, 0xFFFF⟩ 0x00E0 = true ∧
    ⟨"LD_VX_MEM", 0xF065, 0xF0FF⟩ ∈ opcodeMap ∧ OpcodeRow.covers ⟨"LD_VX_MEM", 0xF065, 0xF0FF⟩ 0xFF65 = true := by decide
/-- At 0x200, and at the last address where a word fits. -/
theorem witness_StepRunsDecodedInstruction :
    (∃ s : State, s.schedule = [] ∧ s.mode = .running ∧ s.pc.toNat < 0xFFF ∧ s.pc = 0x200 ∧
      decode (s.wordAt s.pc.toNat) = .known (.call 0x300)) ∧
    (∃ s : State, s.schedule = [] ∧ s.mode = .running ∧ s.pc.toNat < 0xFFF ∧ s.pc = 0xFFE ∧
      decode (s.wordAt s.pc.toNat) = .known (.ldImm 0 0x11)) :=
  ⟨⟨base.withFetchWord 16 0x2300, by decide⟩, ⟨(base.setPc 0xFFE).withFetchWord 16 0x6011, by decide⟩⟩
theorem witness_StepTakesScheduledEvent :
    State.schedule { busy with schedule := [.timerTick, .instrTick] } = .timerTick :: [.instrTick] := by rfl
theorem witness_FetchAtTopOfMemory : (base.setPc 0xFFF).mode = .running ∧ (base.setPc 0xFFF).pc = 0xFFF ∧
    (base.setPc 0xFFE).pc = 0xFFE := by decide
theorem witness_UnknownWordIsReportedOrHalts :
    (let s := base.withFetchWord 16 0xFFF0
     s.mode = .running ∧ s.pc.toNat < 0xFFF ∧ s.wordAt s.pc.toNat = 0xFFF0 ∧ decode 0xFFF0 = .unknown 0xFFF0 ∧
       s.cfg.unknownPolicy = .continueOn) ∧
    (let s := ((under fun c => { c with unknownPolicy := .halt }).setPc 0xFFE).withFetchWord 16 0x0001
     s.mode = .running ∧ s.pc.toNat < 0xFFF ∧ s.wordAt s.pc.toNat = 0x0001 ∧ decode 0x0001 = .unknown 0x0001 ∧
       s.cfg.unknownPolicy = .halt) := by decide
theorem witness_HaltedStaysUntilReset :
    halted.mode = haltedAt .stackUnderflow 0x00EE ∧ ∃ t, applyEvent .timerTick halted = .next t ∧ Event.timerTick ≠ .reset :=
  ⟨rfl, _, rfl, by decide⟩
/-- Every clause: the two of RUNNING, the two of AWAITING_KEY, HALTED, and the other events. -/
theorem witness_ModeChangesOnlyAsTabled :
    (∃ t, applyEvent .instrTick (base.withFetchWord 16 0xF10A) = .next t ∧
      (base.withFetchWord 16 0xF10A).mode = .running) ∧
    (∃ t, applyEvent .instrTick (base.withFetchWord 16 0x00EE) = .next t ∧
      (base.withFetchWord 16 0x00EE).mode = .running) ∧
    (∃ t, applyEvent .instrTick (base.setPc 0xFFF) = .next t ∧ (base.setPc 0xFFF).mode = .running) ∧
    (∃ t, applyEvent .instrTick busy = .next t ∧ busy.mode = .awaitingKey 1 0) ∧
    (∃ t, applyEvent .instrTick (waiting 15 4 4) = .next t ∧ (waiting 15 4 4).mode = .awaitingKey 15 4) ∧
    (∃ t, applyEvent .instrTick halted = .next t ∧ halted.mode = haltedAt .stackUnderflow 0x00EE) ∧
    (∃ t, applyEvent .timerTick busy = .next t) ∧ (∃ t, applyEvent (.setKeys 1) busy = .next t) ∧
    (∃ t, applyEvent (.load [1]) busy = .next t) ∧ (∃ t, applyEvent .reset busy = .next t) :=
  ⟨⟨_, rfl, rfl⟩, ⟨_, rfl, rfl⟩, ⟨_, rfl, rfl⟩, ⟨_, rfl, rfl⟩, ⟨_, rfl, rfl⟩, ⟨_, rfl, rfl⟩, ⟨_, rfl⟩, ⟨_, rfl⟩, ⟨_, rfl⟩,
    ⟨_, rfl⟩⟩
theorem witness_OnlyKeyWaitSuspends :
    (∃ t, exec (.ldVxK 1) base = .next t ∧ (∀ x b, base.mode ≠ .awaitingKey x b) ∧ ∃ x b, t.mode = .awaitingKey x b) ∧
    (∃ t, (waiting 15 4 4).mode = .awaitingKey 15 4 ∧ instrTick (waiting 15 4 4) = .next t ∧ t.mode ≠ .running) :=
  ⟨⟨_, rfl, (fun _ _ => nofun), 1, 0, rfl⟩, ⟨_, rfl, rfl, nofun⟩⟩
/-- A fault of an instruction, and one of the fetch. -/
theorem witness_FaultLeavesStartOfTick :
    (∃ t, (base.withFetchWord 16 0x00EE).mode = .running ∧ instrTick (base.withFetchWord 16 0x00EE) = .next t ∧
      t.mode = haltedAt .stackUnderflow 0x00EE) ∧
    (∃ t, (base.setPc 0xFFF).mode = .running ∧ instrTick (base.setPc 0xFFF) = .next t ∧
      t.mode = .halted ⟨.addressOutOfRange 0x1000, 0xFFF, none⟩) :=
  ⟨⟨_, rfl, rfl, rfl⟩, ⟨_, rfl, rfl, rfl⟩⟩
/-- One fault of each kind. -/
theorem witness_EachInstructionHasItsFault :
    (∃ t, State.unfaulted { base with sp := 16 } = true ∧ exec (.call 0x300) { base with sp := 16 } = .next t ∧
      t.mode = haltedAt .stackOverflow 0x2300) ∧
    (∃ t, base.unfaulted = true ∧ exec .ret base = .next t ∧ t.mode = haltedAt .stackUnderflow 0x00EE) ∧
    (∃ t, (base.setI 0xFFF).unfaulted = true ∧ exec (.drw 0 0 2) (base.setI 0xFFF) = .next t ∧
      t.mode = haltedAt (.addressOutOfRange 0x1000) 0xD002) ∧
    (∃ t, (base.setI 0xFFE).unfaulted = true ∧ exec (.ldBVx 1) (base.setI 0xFFE) = .next t ∧
      t.mode = haltedAt (.addressOutOfRange 0x1000) 0xF133) ∧
    (∃ t, (base.writeV 5 0x10).unfaulted = true ∧ exec (.sknp 5) (base.writeV 5 0x10) = .next t ∧
      t.mode = haltedAt (.keyIndexOutOfRange 0x10) 0xE5A1) :=
  ⟨⟨_, by decide, rfl, by decide⟩, ⟨_, by decide, rfl, by decide⟩, ⟨_, by decide, rfl, by decide⟩,
    ⟨_, by decide, rfl, by decide⟩, ⟨_, by decide, rfl, by decide⟩⟩
theorem witness_InstructionsLeaveHostSide : ∃ t, exec (.drw 0 1 5) (base.setI 0x50) = .next t := ⟨_, rfl⟩
/-- Each of the three instructions, and Fx1E past 0xFFF. -/
theorem witness_OnlyIndexInstructionsWriteI :
    (∃ t, exec (.ldI 0xFFF) base = .next t ∧ t.i ≠ base.i) ∧
    (∃ t, exec (.ldFVx 0) base = .next t ∧ t.i ≠ base.i) ∧
    (∃ t, exec (.addIVx 2) ((base.setI 0xFFF).writeV 2 1) = .next t ∧ t.i ≠ 0xFFF ∧ 0xFFF < t.i.toNat) :=
  ⟨⟨_, rfl, by decide⟩, ⟨_, rfl, by decide⟩, ⟨_, rfl, by decide, by decide⟩⟩
theorem witness_NextFetchSeesStoredBytes :
    (base.setI 0xFF0).i.toNat + (15 : Reg).val ≤ 0xFFF ∧ (base.setI 0xFFF).i.toNat + (0 : Reg).val ≤ 0xFFF := by decide
theorem witness_StepKeepsInvariant :
    (busy.Inv ∧ ∃ t, step busy = .next t) ∧
    (∃ t, step { busy with schedule := [.load [1, 2]] } = .next t) := ⟨⟨busy_inv, _, rfl⟩, _, rfl⟩
/-- A reachable state that is not the first: a pushed return address. -/
theorem witness_ReachableStatesMeetInvariant : ∃ s, Reachable Config.default s ∧ s.sp = 1 :=
  ⟨_, .event .instrTick (.event (.load [0x23, 0x00]) .construct rfl) rfl, by decide⟩
/-- The ends of the valid range (14 rows at 0xFF2, none at 0xFFFF), and the first invalid one. -/
theorem witness_DrawTogglesSpritePixels :
    validRange (base.setI 0xFF2).i.toNat (14 : Fin 16).val ∧ validRange (base.setI 0xFFFF).i.toNat (0 : Fin 16).val ∧
    ¬ validRange (base.setI 0xFF2).i.toNat (15 : Fin 16).val := by decide
/-- Drawing the pixels under the first bit of a glyph, lit before, and unlit before. -/
theorem witness_DrawTogglesSpritePixels_flag :
    (spriteCovers (base.setI 0x50) 0 1 5 0 0 = true ∧
      Frame.pixel ((base.setI 0x50).setFb (Frame.setPixel base.fb 0 0 true)).fb 0 0 = true) ∧
    (∀ px py, spriteCovers (base.setI 0x50) 0 1 5 px py = true → Frame.pixel (base.setI 0x50).fb px py = false) := by
  refine ⟨by decide, fun px py _ => ?_⟩
  revert py px; decide +kernel
theorem witness_DrawTwiceRestoresScreen : ∃ t u, validRange (base.setI 0x50).i.toNat (5 : Fin 16).val ∧
    exec (.drw 0 1 5) (base.setI 0x50) = .next t ∧
    (t.readV 0).toNat % 64 = ((base.setI 0x50).readV 0).toNat % 64 ∧
    (t.readV 1).toNat % 32 = ((base.setI 0x50).readV 1).toNat % 32 ∧ exec (.drw 0 1 5) t = .next u :=
  ⟨_, _, by decide, rfl, by decide, by decide, rfl⟩
theorem witness_CallPushesReturnAddress :
    (State.sp { base with sp := 15 }).val < 16 ∧ (State.sp { base with sp := 16 }).val = 16 := by decide
theorem witness_ReturnPopsReturnAddress :
    (State.sp { base with sp := 1 }).val = (0 : Fin 16).val + 1 ∧
    (State.sp { base with sp := 16 }).val = (15 : Fin 16).val + 1 ∧ base.sp.val = 0 := by decide
/-- Sixteen nested calls from an empty stack, and one on a stack of fifteen. -/
theorem witness_NestedCallsReturn :
    (List.replicate 16 (0x300 : Addr12) ≠ [] ∧ base.sp.val + (List.replicate 16 (0x300 : Addr12)).length ≤ 16) ∧
    ([(0x300 : Addr12)] ≠ [] ∧ (State.sp { base with sp := 15 }).val + [(0x300 : Addr12)].length ≤ 16) ∧
    (List.replicate 16 (0x300 : Addr12)).length = 16 ∧ base.sp.val = 0 := by decide
theorem witness_SkipsOnConstant : (base.writeV 3 0x42).readV 3 = 0x42 ∧ (base.writeV 3 0x42).readV 3 ≠ 0x43 := by decide
theorem witness_SkipsOnRegisters : base.readV 1 = base.readV 2 ∧ (base.writeV 1 1).readV 1 ≠ (base.writeV 1 1).readV 2 := by
  decide
/-- x = F under each order: only one of the two clauses speaks of VF. -/
theorem witness_AddWritesSumAndCarry :
    (vf ≠ vf ∨ (under fun c => { c with vfOrder := .resultLast }).cfg.vfOrder = .resultLast) ∧
    (vf ≠ vf ∨ base.cfg.vfOrder = .flagLast) ∧ ¬(vf ≠ vf ∨ base.cfg.vfOrder = .resultLast) := by decide
theorem witness_SubtractsWriteDifferenceAndNoBorrow :
    ((1 : Reg) ≠ vf ∨ base.cfg.vfOrder = .resultLast) ∧ (vf ≠ vf ∨ base.cfg.vfOrder = .flagLast) := by decide
/-- Each value of SHIFT_SOURCE, with Vx = 1 and Vy = 0x80. -/
theorem witness_ShiftsWriteResultAndLostBit :
    (let s := (base.writeV 1 1).writeV 2 0x80
     (1 : Byte) = if s.cfg.shiftSource = .vx then s.readV 1 else s.readV 2) ∧
    (let s := ((under fun c => { c with shiftSource := .vy }).writeV 1 1).writeV 2 0x80
     (0x80 : Byte) = if s.cfg.shiftSource = .vx then s.readV 1 else s.readV 2) := by decide
theorem witness_DecimalDigitsStored : (base.setI 0xFFD).i.toNat + 2 ≤ 0xFFF ∧ 0xFFF < (base.setI 0xFFE).i.toNat + 2 := by
  decide
theorem witness_RegistersStored : (base.setI 0xFF0).i.toNat + (15 : Reg).val ≤ 0xFFF ∧
    0xFFF < (base.setI 0xFF1).i.toNat + (15 : Reg).val := by decide
theorem witness_RegistersLoaded : (base.setI 0xFFF).i.toNat + (0 : Reg).val ≤ 0xFFF ∧
    0xFFF < (base.setI 0x1000).i.toNat + (0 : Reg).val := by decide
/-- The registers are cleared between the store and the load. -/
theorem witness_StoreThenLoadReproduces : ∃ t u w, ((base.setI 0x300).writeV 0 5).i.toNat + (2 : Reg).val ≤ 0xFFF ∧
    exec (.ldMemVx 2) ((base.setI 0x300).writeV 0 5) = .next t ∧ u = t.writeV 0 0 ∧
    (∀ a, u.loadByte a = t.loadByte a) ∧ u.i = t.i ∧ exec (.ldVxMem 2) u = .next w :=
  ⟨_, _, _, by decide, rfl, rfl, fun _ => rfl, rfl, rfl⟩
theorem witness_ByteReadsAsLastWritten :
    0xFFF < 0x1000 ∧ Memory.wf busy.cfg.font busy.mem = true := by decide
/-- Key 15, key 0 of 0x10 under LowNibble, and the first key number that faults. -/
theorem witness_SkipsOnKey :
    (((base.writeV 5 15).readV 5).toNat = (15 : Fin 16).val) ∧
    (let s := (under fun c => { c with keyIndex := .lowNibble }).writeV 5 0x10
     s.cfg.keyIndex = .lowNibble ∧ (s.readV 5).toNat % 16 = (0 : Fin 16).val) ∧
    (15 < ((base.writeV 5 16).readV 5).toNat ∧ (base.writeV 5 16).cfg.keyIndex = .fault) := by decide
/-- No new press, and key 2 the lowest new press with key 0 held and key 4 pressed too. -/
theorem witness_KeyPollTakesLowestNewPress :
    ((waiting 1 4 4).mode = .awaitingKey 1 4 ∧
      ∀ k : Fin 16, (waiting 1 4 4).keyPressed k = true → (4 : Keys).getLsbD k.val = true) ∧
    (let s := waiting 1 1 0x0015
     s.mode = .awaitingKey 1 1 ∧ s.keyPressed 2 = true ∧ (1 : Keys).getLsbD (2 : Fin 16).val = false ∧
       ∀ j : Fin 16, j < 2 → s.keyPressed j = true → (1 : Keys).getLsbD j.val = true) := by decide

/-- Instruction ticks and timer ticks in turn. -/
def alternating (n : Nat) : Event := if n % 2 = 0 then .instrTick else .timerTick

theorem witness_FairScheduleEmptiesTimers : Fair alternating ∧ halted.mode = haltedAt .stackUnderflow 0x00EE ∧
    ∀ n, alternating n = .instrTick ∨ alternating n = .timerTick ∨ ∃ k, alternating n = .setKeys k := by
  refine ⟨⟨fun n => ⟨2 * n, by omega, ?_⟩, fun n => ⟨2 * n + 1, by omega, ?_⟩⟩, rfl, fun n => ?_⟩
  · simp [alternating]
  · simp [alternating]
  · by_cases h : n % 2 = 0 <;> simp [alternating, h]

/-- The drawn values of RESET_VALUES = Draw, all 1. -/
def ones : DrawnValues := ⟨Vector.replicate 16 1, 1, 1, 1, Vector.replicate 16 1⟩

/-- Both values of RESET_VALUES, and the addresses on both sides of the font. -/
theorem witness_ResetGivesConstructionValues : busy.cfg.resetValues = .zero ∧
    (under fun c => { c with resetValues := .draw ones }).cfg.resetValues = .draw ones ∧
    (0x04F < 0x050 ∨ 0x0A0 ≤ 0x04F) ∧ (0x0A0 < 0x050 ∨ 0x0A0 ≤ 0x0A0) := by decide
theorem witness_LoadCopiesOrRejects : (List.replicate 3584 (1 : Byte)).length ≤ 3584 ∧
    3584 < (List.replicate 3585 (1 : Byte)).length := by
  rw [List.length_replicate, List.length_replicate]; decide
theorem witness_PortsShowState : (2047 : Fin 2048).val = (31 : Fin 32).val * 64 + (63 : Fin 64).val := by decide
/-- Accumulators already above their periods. -/
theorem witness_SchedulerDrainsAccumulators :
    (let c : Scheduler := ⟨600, 1, 2⟩; 0 < c.cpuHz ∧ 0 ≤ c.accCpu ∧ 0 ≤ c.accTimer) ∧ (0 : Rat) ≤ 1 / 60 := by
  decide +kernel

/-- A rate and durations whose ticks do not fall on the ends of the iterations, with one iteration of no time. -/
theorem witness_SchedulerCountsTicksFromStart :
    (0 : Rat) < 700 ∧ ∀ dt ∈ ([1 / 1000, 0, 1 / 7] : List Rat), 0 ≤ dt := by decide +kernel

end Sys2Proof.Tests
end

section
/-! PROOFS. The family of 10_state.md: what an instruction can do to the state, said once (`InstrEffect`), and the
statements on the invariant, the host's side, the index register, reset and the key port. -/

namespace Sys2Proof.Machine

/-! ## What an instruction can do -/

/-- The faults of an instruction, each under its condition (60_exceptions.md R215). -/
inductive InstrFault (s : State) : Instr → Fault → Prop where
  | call (nnn : Addr12) : s.sp.val = 16 → InstrFault s (.call nnn) .stackOverflow
  | ret : s.sp.val = 0 → InstrFault s .ret .stackUnderflow
  | drw (x y : Reg) (n : Fin 16) :
      ¬ validRange s.i.toNat n.val → InstrFault s (.drw x y n) (.addressOutOfRange (max s.i.toNat 0x1000))
  | ldBVx (x : Reg) :
      0xFFF < s.i.toNat + 2 → InstrFault s (.ldBVx x) (.addressOutOfRange (max s.i.toNat 0x1000))
  | ldMemVx (x : Reg) :
      0xFFF < s.i.toNat + x.val → InstrFault s (.ldMemVx x) (.addressOutOfRange (max s.i.toNat 0x1000))
  | ldVxMem (x : Reg) :
      0xFFF < s.i.toNat + x.val → InstrFault s (.ldVxMem x) (.addressOutOfRange (max s.i.toNat 0x1000))
  | skp (x : Reg) : 15 < (s.readV x).toNat → InstrFault s (.skp x) (.keyIndexOutOfRange (s.readV x))
  | sknp (x : Reg) : 15 < (s.readV x).toNat → InstrFault s (.sknp x) (.keyIndexOutOfRange (s.readV x))

/-- What an instruction's tick can leave of the state `s` at its start, by the parts it writes: the fault of R213; a new
PC alone; general registers, timers, framebuffer and draw counter; I; bytes of memory from I on; the call stack; or the
wait for a key. `exec_effect` ties it to `exec`. -/
inductive InstrEffect (s : State) : Instr → State → Prop where
  | fault {i : Instr} {f : Fault} : InstrFault s i f → InstrEffect s i (s.takeFault f (some (encode i)))
  | jump {i : Instr} (n : Nat) : InstrEffect s i (s.setPc n)
  | data {i : Instr} (v : Vector Byte 16) (dt st : Byte) (fb : Frame) (draws : Nat) :
      InstrEffect s i { s.advance with v := v, dt := dt, st := st, fb := fb, draws := draws }
  | ldI (nnn : Addr12) : InstrEffect s (.ldI nnn) (s.advance.setI (nnn.setWidth 16))
  | addIVx (x : Reg) : InstrEffect s (.addIVx x) (s.advance.setI (s.indexSum (s.readV x)))
  | ldFVx (x : Reg) : InstrEffect s (.ldFVx x) (s.advance.setI (glyphAddr (s.readV x)))
  | store {i : Instr} (bs : List Byte) :
      s.i.toNat + bs.length ≤ 0x1000 → InstrEffect s i (s.advance.storeBytes s.i.toNat bs)
  | call (nnn : Addr12) (h : s.sp.val < 16) (k : Fin 17) : k.val = s.sp.val + 1 → InstrEffect s (.call nnn)
      ((s.advance.setStack (s.stack.set s.sp.val (pcValue (s.pc.toNat + 2))) k).setPc nnn.toNat)
  | ret (j : Fin 16) (k : Fin 17) : s.sp.val = j.val + 1 → k.val = j.val →
      InstrEffect s .ret ((s.advance.setStack s.stack k).setPc (s.stack[j.val]).toNat)
  | ldVxK (x : Reg) : InstrEffect s (.ldVxK x) ((s.advance.setPc s.pc.toNat).setMode (.awaitingKey x s.keys))

section
variable (s : State) (i : Instr)

/-- A write of result and flag is a write of general registers, whichever is last. -/
theorem writeResultFlag_eq (x : Reg) (r : Byte) (c : Bool) :
    s.writeResultFlag x r c = { s with v := (s.writeResultFlag x r c).v } := by
  unfold State.writeResultFlag; split <;> rfl

theorem InstrEffect.writeResultFlag (x : Reg) (r : Byte) (c : Bool) :
    InstrEffect s i (s.advance.writeResultFlag x r c) := by
  rw [writeResultFlag_eq]; exact .data ..

theorem InstrEffect.skipIf (c : Bool) : InstrEffect s i (s.advance.skipIf c) := by
  cases c
  · exact .jump (s.pc.toNat + 2)
  · exact .jump (s.advance.pc.toNat + 2)

/-- Every instruction answers a next state, and that state is one `InstrEffect` describes. -/
theorem exec_effect : ∃ t, exec i s = .next t ∧ InstrEffect s i t := by
  cases i with
  | cls => exact ⟨_, exec_cls s, .data ..⟩
  | ret =>
    rcases exec_ret s with ⟨j, k, hj, hk, h⟩ | ⟨h0, h⟩
    · exact ⟨_, h, .ret j k hj hk⟩
    · exact ⟨_, h, .fault (.ret h0)⟩
  | jp nnn => exact ⟨_, exec_jp s nnn, .jump nnn.toNat⟩
  | call nnn =>
    rcases exec_call s nnn with ⟨hlt, k, hk, h⟩ | ⟨h16, h⟩
    · exact ⟨_, h, .call nnn hlt k hk⟩
    · exact ⟨_, h, .fault (.call nnn h16)⟩
  | seImm x nn => exact ⟨_, exec_seImm s x nn, .skipIf ..⟩
  | sneImm x nn => exact ⟨_, exec_sneImm s x nn, .skipIf ..⟩
  | seReg x y => exact ⟨_, exec_seReg s x y, .skipIf ..⟩
  | sneReg x y => exact ⟨_, exec_sneReg s x y, .skipIf ..⟩
  | ldImm x nn => exact ⟨_, exec_ldImm s x nn, .data ..⟩
  | addImm x nn => exact ⟨_, exec_addImm s x nn, .data ..⟩
  | ldReg x y => exact ⟨_, exec_ldReg s x y, .data ..⟩
  | orReg x y => exact ⟨_, exec_orReg s x y, .data ..⟩
  | andReg x y => exact ⟨_, exec_andReg s x y, .data ..⟩
  | xorReg x y => exact ⟨_, exec_xorReg s x y, .data ..⟩
  | addReg x y => exact ⟨_, exec_addReg s x y, .writeResultFlag ..⟩
  | sub x y => exact ⟨_, exec_sub s x y, .writeResultFlag ..⟩
  | subn x y => exact ⟨_, exec_subn s x y, .writeResultFlag ..⟩
  | shr x y => exact ⟨_, exec_shr s x y, .writeResultFlag ..⟩
  | shl x y => exact ⟨_, exec_shl s x y, .writeResultFlag ..⟩
  | ldI nnn => exact ⟨_, exec_ldI s nnn, .ldI nnn⟩
  | jpV0 nnn => exact ⟨_, exec_jpV0 s nnn, .jump (nnn.toNat + (s.readV 0).toNat)⟩
  | rnd x nn => exact ⟨_, exec_rnd s x nn, .data ..⟩
  | drw x y n =>
    rcases exec_drw s x y n with ⟨_, h⟩ | ⟨hr, h⟩
    · exact ⟨_, h, .data ..⟩
    · exact ⟨_, h, .fault (.drw x y n hr)⟩
  | skp x =>
    rcases exec_skp s x with ⟨k, _, h⟩ | ⟨hv, _, h⟩
    · exact ⟨_, h, .skipIf ..⟩
    · exact ⟨_, h, .fault (.skp x hv)⟩
  | sknp x =>
    rcases exec_sknp s x with ⟨k, _, h⟩ | ⟨hv, _, h⟩
    · exact ⟨_, h, .skipIf ..⟩
    · exact ⟨_, h, .fault (.sknp x hv)⟩
  | ldVxDt x => exact ⟨_, exec_ldVxDt s x, .data ..⟩
  | ldVxK x => exact ⟨_, exec_ldVxK s x, .ldVxK x⟩
  | ldDtVx x => exact ⟨_, exec_ldDtVx s x, .data ..⟩
  | ldStVx x => exact ⟨_, exec_ldStVx s x, .data ..⟩
  | addIVx x => exact ⟨_, exec_addIVx s x, .addIVx x⟩
  | ldFVx x => exact ⟨_, exec_ldFVx s x, .ldFVx x⟩
  | ldBVx x =>
    rcases exec_ldBVx s x with ⟨hi, h⟩ | ⟨hr, h⟩
    · exact ⟨_, h, .store _ (by rw [bcdDigits_length]; omega)⟩
    · exact ⟨_, h, .fault (.ldBVx x hr)⟩
  | ldMemVx x =>
    rcases exec_ldMemVx s x with ⟨hi, h⟩ | ⟨hr, h⟩
    · exact ⟨_, h, .store _ (by rw [regsUpTo_length]; omega)⟩
    · exact ⟨_, h, .fault (.ldMemVx x hr)⟩
  | ldVxMem x =>
    rcases exec_ldVxMem s x with ⟨_, h⟩ | ⟨hr, h⟩
    · exact ⟨_, h, .data ..⟩
    · exact ⟨_, h, .fault (.ldVxMem x hr)⟩

end

/-- The inversion of `exec`. -/
theorem InstrEffect.of_exec {s t : State} {i : Instr} (h : exec i s = .next t) : InstrEffect s i t := by
  obtain ⟨u, hu, he⟩ := exec_effect s i
  cases hu.symm.trans h
  exact he

/-- The record of an instruction's fault is one the core can make. -/
theorem InstrFault.legal {s : State} {i : Instr} {f : Fault} (h : InstrFault s i f) (a : Word) :
    FaultRecord.legal ⟨f, a, some (encode i)⟩ = true := by
  cases h with
  | call | ret => rfl
  | drw | ldBVx | ldMemVx | ldVxMem => simp [FaultRecord.legal]
  | skp _ hv | sknp _ hv => simp [FaultRecord.legal, hv]

/-! ## The invariant -/

/-- The invariant reads PC, memory, the configuration's font, the call stack and the mode. -/
theorem State.Inv.congr {s t : State} (h : s.Inv) (hpc : t.pc.toNat < 0x1000) (hmem : t.mem = s.mem)
    (hcfg : t.cfg = s.cfg) (hstack : t.stack = s.stack) (hsp : t.sp = s.sp) (hmode : t.mode.legal = true) : t.Inv where
  pc := hpc
  mem := by rw [hmem, hcfg]; exact h.mem
  stack := stackLive_congr hstack hsp h.stack
  mode := hmode

theorem State.Inv.setPc {s : State} (h : s.Inv) (n : Nat) : (s.setPc n).Inv :=
  h.congr (pcValue_lt n) rfl rfl rfl rfl h.mode

theorem State.Inv.setMode {s : State} (h : s.Inv) {m : Mode} (hm : m.legal = true) : (s.setMode m).Inv :=
  h.congr h.pc rfl rfl rfl rfl hm

theorem State.Inv.writeV {s : State} (h : s.Inv) (x : Reg) (b : Byte) : (s.writeV x b).Inv :=
  h.congr h.pc rfl rfl rfl rfl h.mode

theorem State.Inv.storeBytes {s : State} (h : s.Inv) {a : Nat} {bs : List Byte} (ha : a + bs.length ≤ 0x1000) :
    (s.storeBytes a bs).Inv where
  pc := by simpa using h.pc
  mem := by simpa using wf_storeBytes h.mem ha
  stack := stackLive_congr (by simp) (by simp) h.stack
  mode := by simpa using h.mode

/-- A legal mode is all a fault has to bring: the rest is the start of the tick (60_exceptions.md R213). -/
theorem State.Inv.takeFault {s : State} (h : s.Inv) {f : Fault} {w : Option Word}
    (hf : FaultRecord.legal ⟨f, s.pc, w⟩ = true) : (s.takeFault f w).Inv :=
  h.setMode hf

theorem InstrEffect.inv {s t : State} {i : Instr} (he : InstrEffect s i t) (h : s.Inv) : t.Inv := by
  have hadv : s.advance.Inv := h.setPc _
  cases he with
  | fault hf => exact h.takeFault (hf.legal s.pc)
  | jump n => exact h.setPc n
  | data | ldI | addIVx | ldFVx => exact hadv.congr hadv.pc rfl rfl rfl rfl h.mode
  | store bs hlen => exact hadv.storeBytes hlen
  | call nnn hlt k hk => exact ⟨pcValue_lt _, h.mem, stackLive_push hlt rfl hk h.stack, h.mode⟩
  | ret j k hj hk => exact ⟨pcValue_lt _, h.mem, stackLive_pop (s := s) rfl (by simp; omega) h.stack, h.mode⟩
  | ldVxK x => exact (hadv.setPc _).setMode rfl

theorem exec_inv {s t : State} {i : Instr} (h : s.Inv) (ht : exec i s = .next t) : t.Inv :=
  (InstrEffect.of_exec ht).inv h

theorem unknownWord_inv {s : State} (h : s.Inv) (w : Word) : (unknownWord w s).Inv := by
  unfold unknownWord
  split
  · have hadv : s.advance.Inv := h.setPc _
    exact hadv.congr hadv.pc rfl rfl rfl rfl h.mode
  · exact h.takeFault rfl

theorem pollKeypad_inv {s : State} (h : s.Inv) (x : Reg) (b : Keys) : (pollKeypad x b s).Inv := by
  unfold pollKeypad
  split
  · exact h.setMode rfl
  · exact ((h.writeV x _).setPc _).setMode rfl

theorem tickRunning_inv {s t : State} (h : s.Inv) (ht : tickRunning s = .next t) : t.Inv := by
  unfold tickRunning at ht
  rcases fetchWord_cases s with ⟨_, hf⟩ | ⟨_, hf⟩ <;> simp only [hf] at ht
  · split at ht
    · exact exec_inv h ht
    · cases ht; exact unknownWord_inv h _
  · cases ht; exact h.takeFault (by simp [FaultRecord.legal])

theorem instrTick_inv {s t : State} (h : s.Inv) (ht : instrTick s = .next t) : t.Inv := by
  unfold instrTick at ht
  split at ht
  · exact tickRunning_inv h ht
  · cases ht; exact pollKeypad_inv h _ _
  · cases ht; exact h

theorem loadOperation_inv {s : State} (h : s.Inv) (bytes : List Byte) : (loadOperation bytes s).Inv := by
  unfold loadOperation loadProgram
  split_ifs with hlen
  · have hload : ((s.storeBytes 0x200 bytes).setPc 0x200).Inv :=
      (h.storeBytes (by unfold progMax at hlen; omega)).setPc _
    exact hload.congr hload.pc rfl rfl rfl rfl hload.mode
  · exact h.congr h.pc rfl rfl rfl rfl h.mode

/-- Settles O21: PC is 0x200, no byte of memory is listed, no stack entry is live and the mode is RUNNING. -/
theorem constructionMeetsInvariant : Obligations.ConstructionMeetsInvariant := fun cfg =>
  { pc := by show (0x200 : Word).toNat < 0x1000; decide
    mem := rfl
    stack := fun k hk => absurd hk (Nat.not_lt_zero k.val)
    mode := rfl }

theorem resetOperation_inv (s : State) : (resetOperation s).Inv :=
  have hc := constructionMeetsInvariant s.cfg
  hc.congr hc.pc rfl rfl rfl rfl rfl

/-- Every event keeps the invariant, whichever transition it is. -/
theorem applyEvent_inv {s t : State} {e : Event} (h : s.Inv) (ht : applyEvent e s = .next t) : t.Inv := by
  cases e with
  | instrTick => exact instrTick_inv h ht
  | timerTick => cases ht; exact h.congr h.pc rfl rfl rfl rfl h.mode
  | setKeys k => cases ht; exact h.congr h.pc rfl rfl rfl rfl h.mode
  | load bytes => cases ht; exact loadOperation_inv h bytes
  | reset => cases ht; exact resetOperation_inv s

/-- Settles O20: a step is an instruction tick or the next scheduled event, and each keeps the invariant. -/
theorem stepKeepsInvariant : Obligations.StepKeepsInvariant := by
  intro s t h ht
  unfold step at ht
  split at ht
  · exact instrTick_inv h ht
  · refine applyEvent_inv ?_ ht
    exact h.congr h.pc rfl rfl rfl rfl h.mode

/-! ## What instructions leave unchanged -/

/-- Settles O17: none of the effects an instruction can have is on the host's side. -/
theorem instructionsLeaveHostSide : Obligations.InstructionsLeaveHostSide := by
  intro i s t ht
  cases InstrEffect.of_exec ht with
  | store bs _ => simp
  | fault | jump | data | ldI | addIVx | ldFVx | call | ret | ldVxK => exact ⟨rfl, rfl, rfl, rfl, rfl⟩

/-- The address of `Annn` fits in 12 bits (44_index_memory.md R171). -/
theorem setWidth_addr12_le (nnn : Addr12) : (nnn.setWidth 16).toNat ≤ 0xFFF := by
  rw [BitVec.toNat_setWidth]; omega

/-- The last byte's glyph address, 0x050 + 255 * 5, is below 0x1000 (44_index_memory.md R173). -/
theorem glyphAddr_le (v : Byte) : (glyphAddr v).toNat ≤ 0xFFF := by
  have := v.isLt
  rw [glyphAddr, BitVec.toNat_ofNat]
  exact (Nat.mod_le _ _).trans (by omega)

/-- Settles O18: `Annn` loads 12 bits and a glyph's address stays below 0x1000, so only the sum of `Fx1E` can exceed
0xFFF; every other effect leaves I. -/
theorem onlyIndexInstructionsWriteI : Obligations.OnlyIndexInstructionsWriteI := by
  intro i s t ht hi
  cases InstrEffect.of_exec ht with
  | ldI nnn => exact ⟨.inl ⟨nnn, rfl⟩, fun h => absurd h (setWidth_addr12_le nnn).not_gt⟩
  | addIVx x => exact ⟨.inr (.inl ⟨x, rfl⟩), fun _ => ⟨x, rfl⟩⟩
  | ldFVx x => exact ⟨.inr (.inr ⟨x, rfl⟩), fun h => absurd h (glyphAddr_le _).not_gt⟩
  | store bs _ => exact absurd (storeBytes_i s.advance s.i.toNat bs) hi
  | fault | jump | data | call | ret | ldVxK => exact absurd rfl hi

/-! ## Reset and the key port -/

theorem initByte_font (font : Vector Byte 80) (k : Fin 80) : initByte font (0x050 + k.val) = font[k.val] := by
  have hk : 0x050 ≤ 0x050 + k.val ∧ 0x050 + k.val < 0x0A0 := by omega
  simp [initByte, hk]

theorem initByte_of_not_font (font : Vector Byte 80) {a : Nat} (h : a < 0x050 ∨ 0x0A0 ≤ a) : initByte font a = 0 :=
  dif_neg (by omega)

/-- No byte is listed after reset, so each reads as its construction value. -/
theorem resetOperation_loadByte (s : State) (a : Nat) : (resetOperation s).loadByte a = initByte s.cfg.font a := rfl

/-- Settles O54: the state at construction, read part by part. -/
theorem resetGivesConstructionValues : Obligations.ResetGivesConstructionValues := by
  intro s
  refine ⟨resetOperation s, rfl, rfl, rfl, rfl, ?keys, pixel_clear, initByte_font s.cfg.font,
    fun a ha => initByte_of_not_font s.cfg.font ha, ?zero, ?draw⟩
  case keys => intro k; simp [resetOperation, State.construct, State.keyPressed]
  case zero =>
    intro hz
    simp [resetOperation, State.construct, State.readV, hz, resetValuesOf]
  case draw =>
    intro d hd
    simp [resetOperation, State.construct, hd, resetValuesOf]

/-- Settles O56: the write is of the keypad field, so every other part is the same by computation. -/
theorem keyPortWritesKeypad : Obligations.KeyPortWritesKeypad := by
  intro k s
  refine ⟨setKeys k s, rfl, fun _ => rfl, rfl, fun p hp => ?_, fun _ _ => rfl⟩
  cases p with
  | keypad => exact absurd (List.mem_singleton_self _) hp
  | stack => exact ⟨rfl, rfl⟩
  | memory => exact fun _ => rfl
  | screen => exact fun _ _ => rfl
  | index | delayTimer | soundTimer | mode | config | draws | reports | loadResults | schedule => rfl

end Sys2Proof.Machine
end

section
/-! PROOFS. The family of 20_memory.md: a byte reads as last written (R57), and the fetch sees what a store wrote
(R64). -/

namespace Sys2Proof.Machine

/-- Settles O46: the read-after-write law of one byte, and the canonical form under a write at a valid address. -/
theorem byteReadsAsLastWritten : Obligations.ByteReadsAsLastWritten := by
  intro s a b
  refine ⟨?same, fun c hc => ?other, fun ha hwf => Memory.wf_write b hwf ha⟩
  case same => rw [loadByte_storeByte, if_pos rfl]
  case other => rw [loadByte_storeByte, if_neg hc]

/-! ## The fetch after a store -/

/-- The bytes `Fx55` stores are what reading sees at I..I+x (44_index_memory.md R175). -/
theorem loadByte_storeBytes_regsUpTo (s : State) (x : Reg) (a : Nat) :
    (s.storeBytes s.i.toNat (s.regsUpTo x)).loadByte a = byteAfterStore s x a := by
  rw [loadByte_storeBytes, byteAfterStore]
  by_cases h : s.i.toNat ≤ a ∧ a ≤ s.i.toNat + x.val
  · have hlen : s.i.toNat ≤ a ∧ a - s.i.toNat < (s.regsUpTo x).length := by rw [regsUpTo_length]; omega
    have hreg : a - s.i.toNat < 16 := by omega
    rw [dif_pos hlen, if_pos h, regsUpTo_getElem]
    exact congrArg s.readV (Fin.ext (Nat.mod_eq_of_lt hreg).symm)
  · have hlen : ¬(s.i.toNat ≤ a ∧ a - s.i.toNat < (s.regsUpTo x).length) := by rw [regsUpTo_length]; omega
    rw [dif_neg hlen, if_neg h]

/-- With PC at an address below 0xFFF the fetch gives the word there. -/
theorem fetchWord_setPc (s : State) {a : Nat} (ha : a < 0xFFF) : fetchWord (s.setPc a) = .ok (s.wordAt a) := by
  have hpc : (s.setPc a).pc.toNat = a := by rw [setPc_pc, pcValue_toNat]; omega
  rcases fetchWord_cases (s.setPc a) with ⟨_, hf⟩ | ⟨hge, _⟩
  · rw [hf, hpc]; rfl
  · omega

/-- Settles O19: a valid `Fx55` leaves the stored bytes in memory, and the fetch reads that memory. -/
theorem nextFetchSeesStoredBytes : Obligations.NextFetchSeesStoredBytes := by
  intro x s hvalid
  rcases exec_ldMemVx s x with ⟨_, hexec⟩ | ⟨hinvalid, _⟩
  · refine ⟨_, hexec, fun a ha => ?_⟩
    have hread (c : Nat) : (s.advance.storeBytes s.i.toNat (s.regsUpTo x)).loadByte c = byteAfterStore s x c :=
      loadByte_storeBytes_regsUpTo s.advance x c
    rw [fetchWord_setPc _ ha, State.wordAt, hread, hread]
  · omega

end Sys2Proof.Machine
end

section
/-! PROOFS. The family of 30_encoding.md: encoding and decoding are inverse to each other (R80), the words of no
instruction are those of R76, and a word decodes to the one row of the opcode map it matches (R74). -/

namespace Sys2Proof

/-! ## The word of an instruction as its row's match and its operand fields -/

section
variable (op : BitVec 4) (x y : Reg)

theorem nib_zero : nib 0 = 0#4 := rfl

theorem ofNat_val_eq_setWidth_nib (k : Fin 16) : BitVec.ofNat 16 k.val = (nib k).setWidth 16 :=
  BitVec.eq_of_toNat_eq (by simp)

/-! For each format of R72, bit by bit: the word is the word with zero operands, or-ed with the operands in place. -/

theorem encNNN_eq_or_fields (nnn : Addr12) : encNNN op nnn = encNNN op 0 ||| (Operands.addr nnn.toNat).fields := by
  simp only [encNNN, Operands.fields, BitVec.ofNat_toNat]
  ext i hi; grind

theorem encXNN_eq_or_fields (nn : Byte) :
    encXNN op x nn = encXNN op 0 0 ||| (Operands.regImm x.val nn.toNat).fields := by
  simp only [encXNN, Operands.fields, BitVec.ofNat_toNat, ofNat_val_eq_setWidth_nib, nib_zero]
  ext i hi; grind

theorem encXYN_eq_or_fields (n : BitVec 4) :
    encXYN op x y n = encXYN op 0 0 n ||| (Operands.regReg x.val y.val).fields := by
  simp only [encXYN, Operands.fields, ofNat_val_eq_setWidth_nib, nib_zero]
  ext i hi; grind

theorem encXYN_nib_eq_or_fields (n : Fin 16) :
    encXYN op x y (nib n) = encXYN op 0 0 0 ||| (Operands.regRegCount x.val y.val n.val).fields := by
  simp only [encXYN, Operands.fields, ofNat_val_eq_setWidth_nib, nib_zero]
  ext i hi; grind

theorem encX_eq_or_fields (sub : Byte) : encX op x sub = encX op 0 sub ||| (Operands.reg x.val).fields := by
  simp only [encX, Operands.fields, ofNat_val_eq_setWidth_nib, nib_zero]
  ext i hi; grind

end

/-- The row of an instruction, found by its mnemonic, has the match its encoding is built on (R74, R80). -/
theorem encode_eq_value_or_fields (i : Instr) : ∃ r, opcodeMap.find? (fun q => q.mnemonic == i.mnemonic) = some r ∧
    encode i = r.value ||| i.operands.fields := by
  cases i with
  | cls | ret => exact ⟨_, rfl, rfl⟩
  | jp nnn | call nnn | ldI nnn | jpV0 nnn => exact ⟨_, rfl, encNNN_eq_or_fields _ nnn⟩
  | seImm x nn | sneImm x nn | ldImm x nn | addImm x nn | rnd x nn => exact ⟨_, rfl, encXNN_eq_or_fields _ x nn⟩
  | seReg x y | sneReg x y | ldReg x y | orReg x y | andReg x y | xorReg x y | addReg x y | sub x y | shr x y
  | subn x y | shl x y => exact ⟨_, rfl, encXYN_eq_or_fields _ x y _⟩
  | drw x y n => exact ⟨_, rfl, encXYN_nib_eq_or_fields _ x y n⟩
  | skp x | sknp x | ldVxDt x | ldVxK x | ldDtVx x | ldStVx x | addIVx x | ldFVx x | ldBVx x | ldMemVx x
  | ldVxMem x => exact ⟨_, rfl, encX_eq_or_fields _ x _⟩

theorem encode_row (i : Instr) :
    ∃ r ∈ opcodeMap, r.mnemonic = i.mnemonic ∧ encode i = r.value ||| i.operands.fields := by
  obtain ⟨r, hfind, henc⟩ := encode_eq_value_or_fields i
  have hname := List.find?_some hfind
  exact ⟨r, List.mem_of_find?_eq_some hfind, eq_of_beq hname, henc⟩

/-! ## Decoding the word of an instruction -/

@[simp] theorem nOf_encXYN_nib (op : BitVec 4) (x y : Reg) (n : Fin 16) : nOf (encXYN op x y (nib n)) = n :=
  Fin.ext (nOf_encXYN op x y (nib n))

/-- By format: the op and the sub-opcode choose the constructor, and the operand fields read back what was put there. -/
theorem decode_encode (i : Instr) : decode (encode i) = .known i := by
  cases i with
  | cls | ret => decide
  | jp nnn | call nnn | ldI nnn | jpV0 nnn => simp [encode, decode]
  | seImm x nn | sneImm x nn | ldImm x nn | addImm x nn | rnd x nn => simp [encode, decode]
  | seReg x y | sneReg x y => simp [encode, decode]
  | ldReg x y | orReg x y | andReg x y | xorReg x y | addReg x y | sub x y | shr x y | subn x y | shl x y =>
    simp [encode, decode, decode8]
  | drw x y n => simp only [encode, decode, opOf_encXYN, xOf_encXYN, yOf_encXYN, nOf_encXYN_nib]; rfl
  | skp x | sknp x => simp [encode, decode, decodeE]
  | ldVxDt x | ldVxK x | ldDtVx x | ldStVx x | addIVx x | ldFVx x | ldBVx x | ldMemVx x | ldVxMem x =>
    simp [encode, decode, decodeF]

/-- Settles O1: the row by `encode_row`, the round trip by `decode_encode`. -/
theorem decodeInvertsEncode : Obligations.DecodeInvertsEncode := fun i => ⟨encode_row i, decode_encode i⟩

/-! ## Rebuilding a word from its fields -/

section
variable {w : Word} {op : BitVec 4}

theorem encNNN_of_fields (hop : opOf w = op.toNat) : encNNN op (nnnOf w) = w := by
  apply BitVec.eq_of_toNat_eq
  rw [encNNN_toNat, nnnOf_eq, ← hop, opOf_eq]; omega

theorem encXNN_of_fields (hop : opOf w = op.toNat) : encXNN op (xOf w) (nnOf w) = w := by
  apply BitVec.eq_of_toNat_eq
  rw [encXNN_toNat, xOf_eq, nnOf_eq, ← hop, opOf_eq]; omega

theorem encXYN_of_fields {n : BitVec 4} (hop : opOf w = op.toNat) (hn : (nOf w).val = n.toNat) :
    encXYN op (xOf w) (yOf w) n = w := by
  apply BitVec.eq_of_toNat_eq
  rw [encXYN_toNat, xOf_eq, yOf_eq, ← hn, nOf_eq, ← hop, opOf_eq]; omega

theorem encX_of_fields {sub : Byte} (hop : opOf w = op.toNat) (hsub : (nnOf w).toNat = sub.toNat) :
    encX op (xOf w) sub = w := by
  apply BitVec.eq_of_toNat_eq
  rw [encX_toNat, xOf_eq, ← hsub, nnOf_eq, ← hop, opOf_eq]; omega

end

/-! ## The encoding of what a word decodes to, group by group -/

section
variable {w : Word} {i : Instr}

theorem encode_of_decode0 (h : decode0 w = .known i) : encode i = w := by
  unfold decode0 at h
  split_ifs at h with hcls hret
  · cases h; exact hcls.symm
  · cases h; exact hret.symm

theorem encode_of_decode8 (hop : opOf w = 8) (h : decode8 w = .known i) : encode i = w := by
  unfold decode8 at h
  split at h <;> cases h
  all_goals next hn => exact encXYN_of_fields hop hn

theorem encode_of_decodeE (hop : opOf w = 14) (h : decodeE w = .known i) : encode i = w := by
  unfold decodeE at h
  split at h <;> cases h
  all_goals next hsub => exact encX_of_fields hop hsub

theorem encode_of_decodeF (hop : opOf w = 15) (h : decodeF w = .known i) : encode i = w := by
  unfold decodeF at h
  split at h <;> cases h
  all_goals next hsub => exact encX_of_fields hop hsub

/-- One case for each op, 0 to 15 in order, then no op. -/
theorem encode_of_decode (h : decode w = .known i) : encode i = w := by
  unfold decode at h
  split at h <;> rename_i hop
  · exact encode_of_decode0 h
  · cases h; exact encNNN_of_fields hop
  · cases h; exact encNNN_of_fields hop
  · cases h; exact encXNN_of_fields hop
  · cases h; exact encXNN_of_fields hop
  · split_ifs at h with hn; cases h; exact encXYN_of_fields hop hn
  · cases h; exact encXNN_of_fields hop
  · cases h; exact encXNN_of_fields hop
  · exact encode_of_decode8 hop h
  · split_ifs at h with hn; cases h; exact encXYN_of_fields hop hn
  · cases h; exact encNNN_of_fields hop
  · cases h; exact encNNN_of_fields hop
  · cases h; exact encXNN_of_fields hop
  · cases h; exact encXYN_of_fields hop rfl
  · exact encode_of_decodeE hop h
  · exact encode_of_decodeF hop h
  · cases h

end

/-- Settles O2: the fields a word decodes to, put back in place, are the word. -/
theorem decodedWordIsItsEncoding : Obligations.DecodedWordIsItsEncoding := fun _ _ => encode_of_decode

/-! ## The words of no instruction -/

section
variable (w u : Word)

theorem decode0_eq_unknown_iff : decode0 w = .unknown u ↔ u = w ∧ w.toNat ≠ 0x00E0 ∧ w.toNat ≠ 0x00EE := by
  have hcls : w = 0x00E0 ↔ w.toNat = 0x00E0 := BitVec.toNat_inj.symm
  have hret : w = 0x00EE ↔ w.toNat = 0x00EE := BitVec.toNat_inj.symm
  unfold decode0
  split_ifs <;> simp_all [eq_comm]

theorem decode8_eq_unknown_iff : decode8 w = .unknown u ↔
    u = w ∧ (w.toNat % 16 = 15 ∨ (8 ≤ w.toNat % 16 ∧ w.toNat % 16 ≤ 13)) := by
  unfold decode8
  rw [nOf_eq]
  split
  case h_10 => rw [Decoded.unknown.injEq, eq_comm]; grind
  all_goals next hn => simp [hn]

theorem decodeE_eq_unknown_iff : decodeE w = .unknown u ↔ u = w ∧ w.toNat % 256 ≠ 0x9E ∧ w.toNat % 256 ≠ 0xA1 := by
  unfold decodeE
  rw [nnOf_eq]
  split <;> simp_all [eq_comm]

theorem decodeF_eq_unknown_iff : decodeF w = .unknown u ↔
    u = w ∧ w.toNat % 256 ∉ [0x07, 0x0A, 0x15, 0x18, 0x1E, 0x29, 0x33, 0x55, 0x65] := by
  unfold decodeF
  rw [nnOf_eq]
  split <;> simp_all [eq_comm]

end

/-- Settles O3: one case for each op; only the groups of R76 can decode to the unknown variant. -/
theorem unknownWordsAreTheTabled : Obligations.UnknownWordsAreTheTabled := by
  intro w u
  unfold decode
  rw [opOf_eq]
  split <;> rename_i hop
  case h_1 => simp [hop, decode0_eq_unknown_iff]
  case h_6 | h_10 => rw [nOf_eq]; split_ifs with hn <;> simp [hop, hn, eq_comm]
  case h_9 => simp [hop, decode8_eq_unknown_iff]
  case h_15 => simp [hop, decodeE_eq_unknown_iff]
  case h_16 => simp [hop, decodeF_eq_unknown_iff]
  case h_17 => have := w.isLt; grind
  all_goals simp [hop]

/-! ## The rows of the opcode map -/

/-- The row a word decodes to, by its mnemonic. -/
def Decoded.row : Decoded → Option String
  | .known i => some i.mnemonic
  | .unknown _ => none

theorem Decoded.row_eq_some {d : Decoded} {m : String} (h : d.row = some m) : ∃ i, d = .known i ∧ i.mnemonic = m := by
  cases d with
  | known i => exact ⟨i, rfl, Option.some.inj h⟩
  | unknown w => cases h

section
variable {w v : Word}

theorem row_decode8_congr (hn : nOf w = nOf v) : (decode8 w).row = (decode8 v).row := by
  unfold decode8; rw [hn]; split <;> rfl

theorem row_decodeE_congr (hnn : nnOf w = nnOf v) : (decodeE w).row = (decodeE v).row := by
  unfold decodeE; rw [hnn]; split <;> rfl

theorem row_decodeF_congr (hnn : nnOf w = nnOf v) : (decodeF w).row = (decodeF v).row := by
  unfold decodeF; rw [hnn]; split <;> rfl

/-- The fields that choose the row: the op; in group 0 the whole word; n in groups 5, 8 and 9; nn in groups E and F. -/
theorem row_decode_congr (hop : opOf w = opOf v) (hfix : opOf v = 0 → w = v)
    (hn : opOf v ∈ [5, 8, 9] → nOf w = nOf v) (hnn : opOf v ∈ [14, 15] → nnOf w = nnOf v) :
    (decode w).row = (decode v).row := by
  unfold decode
  rw [hop]
  split <;> rename_i hv
  case h_1 => rw [hfix hv]
  case h_6 | h_10 => rw [hn (by simp [hv])]; split_ifs <;> rfl
  case h_9 => exact row_decode8_congr (hn (by simp [hv]))
  case h_15 => exact row_decodeE_congr (hnn (by simp [hv]))
  case h_16 => exact row_decodeF_congr (hnn (by simp [hv]))
  all_goals rfl

end

/-- A field that a mask keeps whole is the same in a word and in the masked word. -/
theorem extractLsb'_and_of_allOnes (w m : Word) {s k : Nat} (hm : m.extractLsb' s k = BitVec.allOnes k) :
    w.extractLsb' s k = (w &&& m).extractLsb' s k := by
  rw [BitVec.extractLsb'_and, hm, BitVec.and_allOnes]

/-- The mask of every row keeps the fields that choose the row. -/
theorem opcodeMap_masks : ∀ r ∈ opcodeMap,
    r.mask.extractLsb' 12 4 = BitVec.allOnes 4 ∧
    (opOf r.value = 0 → r.mask = BitVec.allOnes 16) ∧
    (opOf r.value ∈ [5, 8, 9] → r.mask.extractLsb' 0 4 = BitVec.allOnes 4) ∧
    (opOf r.value ∈ [14, 15] → r.mask.extractLsb' 0 8 = BitVec.allOnes 8) := by decide

theorem row_decode_value : ∀ r ∈ opcodeMap, (decode r.value).row = some r.mnemonic := by decide

theorem row_eq_of_mnemonic : ∀ q ∈ opcodeMap, ∀ r ∈ opcodeMap, q.mnemonic = r.mnemonic → q = r := by decide

/-- A word that meets a row's masked match decodes to an instruction of that row, as the row's match itself does. -/
theorem decode_of_covers {w : Word} {r : OpcodeRow} (hr : r ∈ opcodeMap) (h : r.covers w = true) :
    ∃ i, decode w = .known i ∧ i.mnemonic = r.mnemonic := by
  have hw : w &&& r.mask = r.value := eq_of_beq h
  obtain ⟨hop, hfix, hn, hnn⟩ := opcodeMap_masks r hr
  have field {s k : Nat} (hm : r.mask.extractLsb' s k = BitVec.allOnes k) :
      w.extractLsb' s k = r.value.extractLsb' s k := hw ▸ extractLsb'_and_of_allOnes w r.mask hm
  apply Decoded.row_eq_some
  rw [← row_decode_value r hr]
  apply row_decode_congr
  · exact congrArg BitVec.toNat (field hop)
  · intro h0
    rw [← hw, hfix h0, BitVec.and_allOnes]
  · exact fun h5 => congrArg BitVec.toFin (field (hn h5))
  · exact fun h14 => field (hnn h14)

/-- Settles O4: the word is the encoding of what it decodes to, and that instruction has one row. -/
theorem opcodeMapDecidesDecode : Obligations.OpcodeMapDecidesDecode := by
  intro w r hr hw
  obtain ⟨i, hi, hname⟩ := decode_of_covers hr hw
  refine ⟨⟨i, hi, hname, ?fields⟩, fun q hq hqw => ?unique⟩
  case fields =>
    obtain ⟨r', hr', hname', henc⟩ := encode_row i
    have hrow : r' = r := row_eq_of_mnemonic r' hr' r hr (hname'.trans hname)
    rw [← encode_of_decode hi, henc, hrow]
  case unique =>
    obtain ⟨j, hj, hname'⟩ := decode_of_covers hq hqw
    have hij : i = j := Decoded.known.inj (hi.symm.trans hj)
    exact row_eq_of_mnemonic q hq r hr (by rw [← hname, ← hname', hij])

/-! ## Fields and samples -/

/-- Bits s to s + k - 1 of a word, by the mask of those bits and a shift. -/
theorem toNat_extractLsb'_eq_mask_shift (w m : Word) {s k : Nat} (hm : m.toNat >>> s = 2 ^ k - 1) :
    (w.extractLsb' s k).toNat = ((w &&& m) >>> s).toNat := by
  rw [BitVec.extractLsb'_toNat, BitVec.toNat_ushiftRight, BitVec.toNat_and, Nat.shiftRight_and_distrib, hm,
    Nat.and_two_pow_sub_one_eq_mod]

/-- Settles O5: each field is the bits of its mask. -/
theorem fieldsAreMaskedAndShifted : Obligations.FieldsAreMaskedAndShifted := by
  intro w
  have field {s k : Nat} (m : Word) (hm : m.toNat >>> s = 2 ^ k - 1) := toNat_extractLsb'_eq_mask_shift w m hm
  exact ⟨field 0xF000 rfl, field 0x0F00 rfl, field 0x00F0 rfl, field 0x000F rfl, field 0x00FF rfl, field 0x0FFF rfl⟩

/-- Settles O6: each sample word but the last is the encoding of its instruction. -/
theorem sampleWordsDecode : Obligations.SampleWordsDecode :=
  ⟨decode_encode .cls, decode_encode (.call 0x300), decode_encode (.seImm 3 0x42), decode_encode (.addReg 1 2),
    decode_encode (.ldI 0x123), decode_encode (.drw 1 2 0), decode_encode (.skp 5), decode_encode (.ldMemVx 2),
    by decide⟩

end Sys2Proof
end

section
/-! PROOFS. The family of 40_execution_cycle.md: what an instruction tick does in each mode and for each kind of fetched
word, and which transitions change the mode (R100). -/

namespace Sys2Proof.Machine

section
variable {s t : State}

/-! ## The instruction tick, case by case -/

theorem step_of_nothing_scheduled (h : s.schedule = []) : step s = instrTick s := by
  unfold step; rw [h]

theorem fetchWord_of_lt (h : s.pc.toNat < 0xFFF) : fetchWord s = .ok (s.wordAt s.pc.toNat) := by
  rcases fetchWord_cases s with ⟨_, hf⟩ | ⟨hge, _⟩
  · exact hf
  · omega

theorem fetchWord_of_ge (h : 0xFFF ≤ s.pc.toNat) :
    fetchWord s = .error (.addressOutOfRange (max s.pc.toNat 0x1000)) := by
  rcases fetchWord_cases s with ⟨hlt, _⟩ | ⟨_, hf⟩
  · omega
  · exact hf

theorem instrTick_running (h : s.mode = .running) : instrTick s = tickRunning s := by
  unfold instrTick; rw [h]

theorem instrTick_awaitingKey {x : Reg} {b : Keys} (h : s.mode = .awaitingKey x b) :
    instrTick s = .next (pollKeypad x b s) := by
  unfold instrTick; rw [h]

theorem instrTick_halted {f : FaultRecord} (h : s.mode = .halted f) : instrTick s = .next s := by
  unfold instrTick; rw [h]

theorem instrTick_fetchFault (hm : s.mode = .running) (hpc : 0xFFF ≤ s.pc.toNat) :
    instrTick s = .next (s.takeFault (.addressOutOfRange (max s.pc.toNat 0x1000)) none) := by
  rw [instrTick_running hm, tickRunning, fetchWord_of_ge hpc]

theorem instrTick_known {i : Instr} (hm : s.mode = .running) (hpc : s.pc.toNat < 0xFFF)
    (hd : decode (s.wordAt s.pc.toNat) = .known i) : instrTick s = exec i s := by
  rw [instrTick_running hm, tickRunning, fetchWord_of_lt hpc]
  simp only [hd]

theorem instrTick_unknown {w : Word} (hm : s.mode = .running) (hpc : s.pc.toNat < 0xFFF)
    (hd : decode (s.wordAt s.pc.toNat) = .unknown w) : instrTick s = .next (unknownWord w s) := by
  rw [instrTick_running hm, tickRunning, fetchWord_of_lt hpc]
  simp only [hd]

theorem unknownWord_continue (w : Word) (h : s.cfg.unknownPolicy = .continueOn) :
    unknownWord w s = s.advance.report w s.pc := by
  unfold unknownWord; rw [h]

theorem unknownWord_halt (w : Word) (h : s.cfg.unknownPolicy = .halt) :
    unknownWord w s = s.takeFault .unknownInstruction (some w) := by
  unfold unknownWord; rw [h]

/-- The poll of R195: it waits on with the keypad as baseline, or completes with the lowest newly pressed key. -/
theorem pollKeypad_cases (x : Reg) (b : Keys) (s : State) :
    (pollKeypad x b s = s.setMode (.awaitingKey x s.keys) ∧
      ∀ k : Fin 16, s.keyPressed k = true → b.getLsbD k.val = true) ∨
    (∃ k : Fin 16, s.keyPressed k = true ∧ b.getLsbD k.val = false ∧
      (∀ j : Fin 16, j < k → s.keyPressed j = true → b.getLsbD j.val = true) ∧
      pollKeypad x b s = ((s.writeV x (BitVec.ofNat 8 k.val)).setPc (s.pc.toNat + 2)).setMode .running) := by
  have not_new (j : Fin 16) (h : (newPresses s.keys b).getLsbD j.val = false) (hj : s.keys.getLsbD j.val = true) :
      b.getLsbD j.val = true := by
    rw [newPresses_getLsbD, hj] at h
    simpa using h
  unfold pollKeypad
  cases hk : lowestKey (newPresses s.keys b) with
  | none => exact .inl ⟨rfl, fun k => not_new k (lowestKey_none.mp hk k)⟩
  | some k =>
    obtain ⟨hnew, hlow⟩ := lowestKey_some.mp hk
    rw [newPresses_getLsbD, Bool.and_eq_true, Bool.not_eq_true'] at hnew
    obtain ⟨hpressed, hreleased⟩ := hnew
    exact .inr ⟨k, hpressed, hreleased, fun j hj => not_new j (hlow j hj), rfl⟩

/-! ## The mode -/

/-- Only Fx0A starts a wait: any other instruction keeps the mode or faults. -/
theorem InstrEffect.mode {i : Instr} (he : InstrEffect s i t) (hi : ∀ x, i ≠ .ldVxK x) :
    t.mode = s.mode ∨ ∃ f, t.mode = .halted f := by
  cases he with
  | fault _ => exact .inr ⟨_, rfl⟩
  | store bs _ => exact .inl (storeBytes_mode s.advance s.i.toNat bs)
  | jump | data | ldI | addIVx | ldFVx | call | ret => exact .inl rfl
  | ldVxK x => exact absurd rfl (hi x)

theorem unknownWord_mode (w : Word) (s : State) :
    (unknownWord w s).mode = s.mode ∨ ∃ f, (unknownWord w s).mode = .halted f := by
  cases h : s.cfg.unknownPolicy with
  | continueOn => rw [unknownWord_continue w h]; exact .inl rfl
  | halt => rw [unknownWord_halt w h]; exact .inr ⟨_, rfl⟩

theorem loadOperation_mode (bytes : List Byte) (s : State) : (loadOperation bytes s).mode = s.mode := by
  unfold loadOperation loadProgram
  split_ifs
  · exact storeBytes_mode s 0x200 bytes
  · rfl

/-- Only instruction ticks and resets touch the mode (R100). -/
theorem applyEvent_mode {e : Event} (ht : applyEvent e s = .next t) (htick : e ≠ .instrTick) (hreset : e ≠ .reset) :
    t.mode = s.mode := by
  cases e with
  | instrTick => exact absurd rfl htick
  | reset => exact absurd rfl hreset
  | timerTick | setKeys => cases ht; rfl
  | load bytes => cases ht; exact loadOperation_mode bytes s

/-- The rows of R100 from RUNNING: Fx0A starts the wait at its own address; any other tick ends in RUNNING or HALTED. -/
theorem instrTick_mode_of_running (hm : s.mode = .running) (ht : instrTick s = .next t) :
    (∃ x, s.pc.toNat < 0xFFF ∧ decode (s.wordAt s.pc.toNat) = .known (.ldVxK x) ∧
      t.mode = .awaitingKey x s.keys ∧ t.pc = s.pc) ∨
    ((∀ x, s.pc.toNat < 0xFFF → decode (s.wordAt s.pc.toNat) ≠ .known (.ldVxK x)) ∧
      (t.mode = .running ∨ ∃ f, t.mode = .halted f)) := by
  by_cases hpc : s.pc.toNat < 0xFFF
  case neg =>
    rw [instrTick_fetchFault hm (not_lt.mp hpc)] at ht
    cases ht
    exact .inr ⟨fun _ hlt => absurd hlt hpc, .inr ⟨_, rfl⟩⟩
  cases hd : decode (s.wordAt s.pc.toNat) with
  | unknown w =>
    rw [instrTick_unknown hm hpc hd] at ht
    cases ht
    exact .inr ⟨fun _ _ => nofun, hm ▸ unknownWord_mode w s⟩
  | known i =>
    rw [instrTick_known hm hpc hd] at ht
    by_cases hi : ∃ x, i = .ldVxK x
    · obtain ⟨x, rfl⟩ := hi
      rw [exec_ldVxK] at ht
      cases ht
      exact .inl ⟨x, hpc, rfl, rfl, pcValue_of_lt (by omega)⟩
    · have hne (x : Reg) : i ≠ .ldVxK x := fun h => hi ⟨x, h⟩
      exact .inr ⟨fun x _ h => hne x (Decoded.known.inj h), hm ▸ (InstrEffect.of_exec ht).mode hne⟩

/-- The rows of R100 from AWAITING_KEY: the wait goes on, or ends in RUNNING with a new press in Vx. -/
theorem instrTick_mode_of_awaitingKey {x : Reg} {b : Keys} (hm : s.mode = .awaitingKey x b)
    (ht : instrTick s = .next t) :
    (t.mode = .awaitingKey x s.keys ∧ t.pc = s.pc ∧ ∀ k : Fin 16, s.keyPressed k = true → b.getLsbD k.val = true) ∨
    (t.mode = .running ∧ t.pc.toNat = (s.pc.toNat + 2) % 0x1000 ∧
      ∃ k : Fin 16, s.keyPressed k = true ∧ b.getLsbD k.val = false ∧ (t.readV x).toNat = k.val) := by
  rw [instrTick_awaitingKey hm] at ht
  cases ht
  rcases pollKeypad_cases x b s with ⟨hpoll, hnone⟩ | ⟨k, hpressed, hreleased, _, hpoll⟩ <;> rw [hpoll]
  · exact .inl ⟨rfl, rfl, hnone⟩
  · refine .inr ⟨rfl, pcValue_toNat _, k, hpressed, hreleased, ?_⟩
    simp only [setMode_readV, setPc_readV, readV_writeV, if_true, BitVec.toNat_ofNat]
    omega

end

/-- Settles O12: one lemma for each mode an instruction tick starts in, and `applyEvent_mode` for the other events. -/
theorem modeChangesOnlyAsTabled : Obligations.ModeChangesOnlyAsTabled := by
  intro s t e ht
  refine ⟨?running, ?awaitingKey, ?halted, ?timerTick, ?setKeys, ?load, ?reset⟩
  case running => rintro rfl hm; exact instrTick_mode_of_running hm ht
  case awaitingKey => rintro x b rfl hm; exact instrTick_mode_of_awaitingKey hm ht
  case halted =>
    rintro f rfl hm
    cases (instrTick_halted hm).symm.trans ht
    exact hm
  case timerTick => rintro rfl; exact applyEvent_mode ht nofun nofun
  case setKeys => rintro k rfl; exact applyEvent_mode ht nofun nofun
  case load => rintro bytes rfl; exact applyEvent_mode ht nofun nofun
  case reset => rintro rfl; cases ht; rfl

/-! ## Single ticks -/

/-- Settles O7: with nothing scheduled the step is the tick of a known word. -/
theorem stepRunsDecodedInstruction : Obligations.StepRunsDecodedInstruction := by
  intro s i hsched hm hpc hd
  rw [step_of_nothing_scheduled hsched, instrTick_known hm hpc hd]

/-- Settles O9: at 0xFFF the second byte has no address; at 0xFFE the word fits and the advance wraps. -/
theorem fetchAtTopOfMemory : Obligations.FetchAtTopOfMemory := by
  refine ⟨fun s hm hpc => ?fault, fun s hpc => ⟨?word, ?wrap⟩⟩
  case fault =>
    have hn : s.pc.toNat = 0xFFF := congrArg BitVec.toNat hpc
    rw [instrTick_fetchFault hm hn.ge, hn, ← hpc]
    rfl
  case word =>
    have hn : s.pc.toNat = 0xFFE := congrArg BitVec.toNat hpc
    rw [fetchWord_of_lt (by omega), hn]
    rfl
  case wrap => rw [advance_pc, hpc]; rfl

/-- An unknown word under Continue changes the report stream and PC only (R99). -/
theorem unchanged_advance_report (s : State) (w a : Word) : Unchanged [.reports] [] s (s.advance.report w a) := by
  refine ⟨fun p hp => ?_, fun _ _ => rfl⟩
  cases p with
  | reports => exact absurd (List.mem_singleton_self _) hp
  | stack => exact ⟨rfl, rfl⟩
  | memory => exact fun _ => rfl
  | screen => exact fun _ _ => rfl
  | index | delayTimer | soundTimer | keypad | mode | config | draws | loadResults | schedule => rfl

/-- Settles O10: the tick is `unknownWord`, under each value of UNKNOWN_POLICY. -/
theorem unknownWordIsReportedOrHalts : Obligations.UnknownWordIsReportedOrHalts := by
  rintro s w hm hpc rfl hd
  have htick := instrTick_unknown hm hpc hd
  refine ⟨fun hpol => ?continueOn, fun hpol => ?halt⟩
  case continueOn =>
    rw [unknownWord_continue _ hpol] at htick
    exact ⟨_, htick, rfl, pcValue_toNat _, unchanged_advance_report s _ s.pc⟩
  case halt =>
    rw [htick, unknownWord_halt _ hpol]
    rfl

/-- Settles O11: a tick in HALTED answers the same state, and no other event but reset touches the mode. -/
theorem haltedStaysUntilReset : Obligations.HaltedStaysUntilReset := by
  intro s f hm
  have htick := instrTick_halted hm
  refine ⟨htick, fun e t ht hreset => ?_, resetOperation s, rfl, rfl⟩
  by_cases he : e = .instrTick
  · subst he
    cases htick.symm.trans ht
    exact hm
  · rw [applyEvent_mode ht he hreset, hm]

end Sys2Proof.Machine
end

section
/-! PROOFS. The family of 41_display.md: clearing the screen (R110), what one draw does to the pixels and to VF (R111),
and that a second draw of the same sprite at the same place undoes the first (R112). -/

namespace Sys2Proof.Machine

/-- The display instructions write PC, the framebuffer and some general registers: those not named keep their value. -/
theorem unchanged_advance_screen (s : State) {v : Vector Byte 16} (fb : Frame) {regs : List Reg}
    (hv : ∀ r : Reg, r ∉ regs → v[r.val] = s.readV r) :
    Unchanged [.screen] regs s { s.advance with v := v, fb := fb } := by
  refine ⟨fun p hp => ?_, hv⟩
  cases p with
  | screen => exact absurd (List.mem_singleton_self _) hp
  | stack => exact ⟨rfl, rfl⟩
  | memory => exact fun _ => rfl
  | index | delayTimer | soundTimer | keypad | mode | config | draws | reports | loadResults | schedule => rfl

/-- Settles O23: the frame is the clear one, and only PC is written beside it. -/
theorem clearScreenUnlitsEveryPixel : Obligations.ClearScreenUnlitsEveryPixel := fun s =>
  ⟨_, exec_cls s, pixel_clear, pcValue_toNat _, unchanged_advance_screen s Frame.clear fun _ _ => rfl⟩

/-! ## One draw -/

theorem flagByte_eq_one_iff {c : Bool} : flagByte c = 1 ↔ c = true := by cases c <;> decide

theorem flagByte_eq_zero_iff {c : Bool} : flagByte c = 0 ↔ c = false := by cases c <;> decide

section
variable {s t : State} {x y : Reg} {n : Fin 16}

theorem exec_drw_of_valid (h : validRange s.i.toNat n.val) : exec (.drw x y n) s = .next (drawn s x y n) := by
  rcases exec_drw s x y n with ⟨_, hexec⟩ | ⟨hinvalid, _⟩
  · exact hexec
  · exact absurd h hinvalid

theorem exec_drw_of_invalid (h : ¬ validRange s.i.toNat n.val) : exec (.drw x y n) s =
    .next (s.takeFault (.addressOutOfRange (max s.i.toNat 0x1000)) (some (encode (.drw x y n)))) := by
  rcases exec_drw s x y n with ⟨hvalid, _⟩ | ⟨_, hexec⟩
  · exact absurd hvalid h
  · exact hexec

/-- Where the sprite falls depends on Vx, Vy, I and memory alone. -/
theorem spriteCovers_congr (hx : (t.readV x).toNat % 64 = (s.readV x).toNat % 64)
    (hy : (t.readV y).toNat % 32 = (s.readV y).toNat % 32) (hi : t.i = s.i)
    (hmem : ∀ a, t.loadByte a = s.loadByte a) (px : Fin 64) (py : Fin 32) :
    spriteCovers t x y n px py = spriteCovers s x y n px py := by
  simp only [spriteCovers, hx, hy, hi, hmem]

end

section
variable (s : State) (x y : Reg) (n : Fin 16)

/-- Drawing the rows at I (at most 15, so no pixel lies under the sprite twice) toggles exactly the pixels under the
sprite, and its collision flag is whether one of them was lit. -/
theorem drawRows_loadBytes :
    let r := drawRows ((s.readV x).toNat % 64) ((s.readV y).toNat % 32) (s.loadBytes s.i.toNat n.val) (s.fb, false)
    (∀ px py, Frame.pixel r.1 px py = (Frame.pixel s.fb px py ^^ spriteCovers s x y n px py)) ∧
      r.2 = decide (∃ px py, spriteCovers s x y n px py = true ∧ Frame.pixel s.fb px py = true) := by
  have hlen : (s.loadBytes s.i.toNat n.val).length ≤ 32 := by rw [loadBytes_length]; omega
  obtain ⟨hpixel, hflag⟩ := drawRows_spec ((s.readV x).toNat % 64) ((s.readV y).toNat % 32) _ hlen s.fb
  refine ⟨fun px py => ?pixel, Bool.eq_iff_iff.mpr ?flag⟩
  case pixel => simp only [hpixel, ← spriteCovers_iff, Bool.decide_eq_true]
  case flag => simp only [hflag, decide_eq_true_iff, Prod.exists, spriteCovers_iff]

theorem drawn_pixel (px : Fin 64) (py : Fin 32) :
    Frame.pixel (drawn s x y n).fb px py = (Frame.pixel s.fb px py ^^ spriteCovers s x y n px py) :=
  (drawRows_loadBytes s x y n).left px py

theorem drawn_readV_vf : (drawn s x y n).readV vf =
    flagByte (decide (∃ px py, spriteCovers s x y n px py = true ∧ Frame.pixel s.fb px py = true)) := by
  rw [← (drawRows_loadBytes s x y n).right]
  exact (readV_writeV s.advance vf vf _).trans (if_pos rfl)

/-- A draw writes the framebuffer, VF and PC only. -/
theorem unchanged_drawn : Unchanged [.screen] [vf] s (drawn s x y n) := by
  refine unchanged_advance_screen s _ fun r hr => ?_
  exact (readV_writeV s.advance vf r _).trans (if_neg fun h => hr (List.mem_singleton.mpr h))

end

/-- Settles O24: a draw with valid addresses leaves `drawn`, any other is the fault of R213. -/
theorem drawTogglesSpritePixels : Obligations.DrawTogglesSpritePixels := by
  intro x y n s
  refine ⟨fun hvalid => ⟨_, exec_drw_of_valid hvalid, drawn_pixel s x y n, fun hhit => ?hit, fun hmiss => ?miss,
    pcValue_toNat _, unchanged_drawn s x y n⟩, exec_drw_of_invalid⟩
  case hit => rw [drawn_readV_vf, flagByte_eq_one_iff, decide_eq_true_iff]; exact hhit
  case miss =>
    rw [drawn_readV_vf, flagByte_eq_zero_iff, decide_eq_false_iff_not]
    rintro ⟨px, py, hcovers, hlit⟩
    exact absurd ((hmiss px py hcovers).symm.trans hlit) nofun

/-- Settles O25: both draws toggle the same pixels, and one under the sprite is lit after the first exactly when it was
unlit before. -/
theorem drawTwiceRestoresScreen : Obligations.DrawTwiceRestoresScreen := by
  intro x y n s t u hvalid ht hx hy hu
  cases (exec_drw_of_valid hvalid).symm.trans ht
  cases (exec_drw_of_valid (s := drawn s x y n) hvalid).symm.trans hu
  have hsame (px : Fin 64) (py : Fin 32) :
      spriteCovers (drawn s x y n) x y n px py = spriteCovers s x y n px py :=
    spriteCovers_congr hx hy rfl (fun _ => rfl) px py
  refine ⟨fun px py => ?pixels, ?flag⟩
  case pixels => rw [drawn_pixel, drawn_pixel, hsame, Bool.xor_assoc, Bool.xor_self, Bool.xor_false]
  case flag =>
    have htoggled (px : Fin 64) (py : Fin 32) (hcovers : spriteCovers s x y n px py = true) :
        Frame.pixel (drawn s x y n).fb px py = true ↔ Frame.pixel s.fb px py = false := by
      rw [drawn_pixel, hcovers, Bool.xor_true, Bool.not_eq_true']
    rw [drawn_readV_vf, flagByte_eq_one_iff, decide_eq_true_iff]
    simp only [hsame]
    exact exists_congr fun px => exists_congr fun py => and_congr_right (htoggled px py)

end Sys2Proof.Machine
end

section
/-! PROOFS. The family of 42_control.md: jumps and skips (R120, R122, R124 to R128), the call and the return (R121, R123),
and that nested calls return (R130). -/

namespace Sys2Proof.Machine

/-! ## The frame -/

/-- The control transfer instructions write PC, and of the rest at most the call stack. -/
theorem unchanged_pc_stack (s : State) (pc : Word) (stk : Vector Word 16) (k : Fin 17) {parts : List Part}
    (hstack : .stack ∉ parts → k = s.sp ∧ stk = s.stack) :
    Unchanged parts [] s { s with pc := pc, stack := stk, sp := k } := by
  refine ⟨fun p hp => ?_, fun _ _ => rfl⟩
  cases p with
  | stack => exact hstack hp
  | memory => exact fun _ => rfl
  | screen => exact fun _ _ => rfl
  | index | delayTimer | soundTimer | keypad | mode | config | draws | reports | loadResults | schedule => rfl

theorem unchanged_advance_setPc (s : State) (n : Nat) : Unchanged [] [] s (s.advance.setPc n) :=
  unchanged_pc_stack s _ _ _ fun _ => ⟨rfl, rfl⟩

theorem unchanged_advance_skipIf (s : State) (c : Bool) : Unchanged [] [] s (s.advance.skipIf c) := by
  cases c
  · exact unchanged_advance_setPc s (s.pc.toNat + 2)
  · exact unchanged_advance_setPc s (s.advance.pc.toNat + 2)

theorem unchanged_setStack_setPc (s : State) (stk : Vector Word 16) (k : Fin 17) (n : Nat) :
    Unchanged [.stack] [] s ((s.advance.setStack stk k).setPc n) :=
  unchanged_pc_stack s _ _ _ fun h => absurd (List.mem_singleton_self _) h

/-! ## Jumps -/

/-- Settles O26: a 12-bit target is below 0x1000, so the write of PC stores it whole. -/
theorem jumpReplacesPc : Obligations.JumpReplacesPc := fun nnn s =>
  ⟨_, exec_jp s nnn, (pcValue_toNat _).trans (Nat.mod_eq_of_lt nnn.isLt), unchanged_advance_setPc s _⟩

/-- Settles O27: the sum is wrapped by the write of PC. -/
theorem jumpOffsetIsAlwaysV0 : Obligations.JumpOffsetIsAlwaysV0 := fun nnn s =>
  ⟨_, exec_jpV0 s nnn, pcValue_toNat _, unchanged_advance_setPc s _⟩

/-! ## Skips -/

section
variable {s : State} {i : Instr} {c : Bool} {P : Prop} [Decidable P]

/-- An instruction that skips on `P` (R120). -/
theorem exec_skip_if (h : exec i s = .next (s.advance.skipIf c)) (hc : c = true ↔ P) :
    ∃ t, exec i s = .next t ∧ Unchanged [] [] s t ∧
      t.pc.toNat = (if P then s.pc.toNat + 4 else s.pc.toNat + 2) % 0x1000 := by
  refine ⟨_, h, unchanged_advance_skipIf s c, ?_⟩
  simp only [skipIf_advance_pc, hc]

/-- An instruction that skips unless `P` (R120). -/
theorem exec_skip_unless (h : exec i s = .next (s.advance.skipIf c)) (hc : c = true ↔ ¬ P) :
    ∃ t, exec i s = .next t ∧ Unchanged [] [] s t ∧
      t.pc.toNat = (if P then s.pc.toNat + 2 else s.pc.toNat + 4) % 0x1000 := by
  simpa only [ite_not] using exec_skip_if h hc

end

/-- Settles O31: 3xnn skips on equality, 4xnn unless. -/
theorem skipsOnConstant : Obligations.SkipsOnConstant := fun x nn s =>
  ⟨exec_skip_if (exec_seImm s x nn) beq_iff_eq, exec_skip_unless (exec_sneImm s x nn) bne_iff_ne⟩

/-- Settles O32: 5xy0 skips on equality, 9xy0 unless. -/
theorem skipsOnRegisters : Obligations.SkipsOnRegisters := fun x y s =>
  ⟨exec_skip_if (exec_seReg s x y) beq_iff_eq, exec_skip_unless (exec_sneReg s x y) bne_iff_ne⟩

/-! ## Calls and returns -/

/-- Settles O28: the two cases of `exec_call`, by whether the stack has room. -/
theorem callPushesReturnAddress : Obligations.CallPushesReturnAddress := by
  intro nnn s
  rcases exec_call s nnn with ⟨hroom, k, hk, h⟩ | ⟨hfull, h⟩
  · refine ⟨fun _ => ⟨_, h, hk, ?entry, fun j hj => ?others, ?target, unchanged_setStack_setPc s _ k _⟩,
      fun hfull => by omega⟩
    case entry => rw [setPc_stack, setStack_stack, Vector.getElem_set_self, pcValue_toNat]
    case others => exact Vector.getElem_set_ne hroom j.isLt hj.symm
    case target => exact (pcValue_toNat _).trans (Nat.mod_eq_of_lt nnn.isLt)
  · exact ⟨fun hroom => by omega, fun _ => h⟩

/-- Settles O29: the two cases of `exec_ret`, by whether the stack has an entry. -/
theorem returnPopsReturnAddress : Obligations.ReturnPopsReturnAddress := by
  intro s
  rcases exec_ret s with ⟨j, k, hj, hk, h⟩ | ⟨hempty, h⟩
  · refine ⟨fun m hm => ?pop, fun hempty => by omega⟩
    obtain rfl : m = j := Fin.ext (by omega)
    exact ⟨_, h, hk, rfl, pcValue_toNat _, unchanged_setStack_setPc s _ k _⟩
  · exact ⟨fun m hm => by omega, fun _ => h⟩

/-! ## Nested calls -/

section
variable {s t : State} {i : Instr} {is : List Instr}

theorem execAll_cons (h : exec i s = .next t) : execAll (i :: is) s = execAll is t := by
  rw [execAll, h]

theorem execAll_append (js : List Instr) (h : execAll is s = .next t) : execAll (is ++ js) s = execAll js t := by
  induction is generalizing s with
  | nil => cases h; rfl
  | cons i is ih =>
    obtain ⟨u, hu, _⟩ := exec_effect s i
    rw [execAll_cons hu] at h
    rw [List.cons_append, execAll_cons hu, ih h]

end

/-- With room for them, nested calls all push. -/
theorem execAll_calls (targets : List Addr12) (s : State) (hroom : s.sp.val + targets.length ≤ 16) :
    ∃ t, execAll (targets.map .call) s = .next t ∧ t.sp.val = s.sp.val + targets.length := by
  induction targets generalizing s with
  | nil => exact ⟨s, rfl, rfl⟩
  | cons a targets ih =>
    rw [List.length_cons] at hroom ⊢
    obtain ⟨u, hu, husp, -⟩ := (callPushesReturnAddress a s).left (by omega)
    obtain ⟨t, ht, htsp⟩ := ih u (by omega)
    exact ⟨t, (execAll_cons hu).trans ht, by omega⟩

/-- Nested calls and as many returns restore SP and the live entries, and if there are any PC comes back after the first
call. By induction on the calls: the inner ones keep the entry the outermost pushed, which the last return pops. -/
theorem execAll_calls_returns (targets : List Addr12) (s : State) (hroom : s.sp.val + targets.length ≤ 16) :
    ∃ t, execAll (targets.map .call ++ List.replicate targets.length .ret) s = .next t ∧ t.sp = s.sp ∧
      (∀ k : Fin 16, k.val < s.sp.val → t.stack[k.val] = s.stack[k.val]) ∧
      (targets ≠ [] → t.pc.toNat = (s.pc.toNat + 2) % 0x1000) := by
  induction targets generalizing s with
  | nil => exact ⟨s, rfl, rfl, fun _ _ => rfl, fun h => absurd rfl h⟩
  | cons a targets ih =>
    rw [List.length_cons] at hroom
    have hlt : s.sp.val < 16 := by omega
    obtain ⟨u, hu, husp, hureturn, hulive, -⟩ := (callPushesReturnAddress a s).left hlt
    obtain ⟨v, hv, hvsp, hvlive, -⟩ := ih u (by omega)
    obtain ⟨t, ht, htsp, htstack, htpc, -⟩ :=
      (returnPopsReturnAddress v).left ⟨s.sp.val, hlt⟩ (by rw [hvsp]; exact husp)
    refine ⟨t, ?run, Fin.ext htsp, fun k hk => ?live, fun _ => ?pc⟩
    case run =>
      calc execAll ((a :: targets).map .call ++ List.replicate (targets.length + 1) .ret) s
        _ = execAll (.call a :: ((targets.map .call ++ List.replicate targets.length .ret) ++ [.ret])) s := by
          rw [List.replicate_succ', List.map_cons, List.cons_append, List.append_assoc]
        _ = execAll [.ret] v := (execAll_cons hu).trans (execAll_append _ hv)
        _ = .next t := execAll_cons ht
    case live => rw [htstack, hvlive k (by omega), hulive k hk.ne]
    case pc =>
      have hreturn : v.stack[s.sp.val] = u.stack[s.sp.val] := hvlive ⟨s.sp.val, hlt⟩ (by simp only [husp]; omega)
      rw [htpc, hreturn, hureturn, Nat.mod_mod]

/-- Settles O30: `execAll_calls_returns` and `execAll_calls`, each followed by the fault of one more instruction. -/
theorem nestedCallsReturn : Obligations.NestedCallsReturn := by
  refine ⟨fun targets s hne hroom => ?returns, fun targets nnn s hlen hempty => ?overflow⟩
  case returns =>
    obtain ⟨t, ht, htsp, -, htpc⟩ := execAll_calls_returns targets s hroom
    exact ⟨t, ht, htpc hne, htsp, fun hempty => (returnPopsReturnAddress t).right (by rw [htsp, hempty])⟩
  case overflow =>
    obtain ⟨t, ht, htsp⟩ := execAll_calls targets s (by omega)
    exact ⟨t, ht, (callPushesReturnAddress nnn t).right (by omega)⟩

end Sys2Proof.Machine
end


section
/-! PROOFS. The family of 43_alu.md: the instructions that write one register (R141 to R146, R152) and those that write
a result and a flag (R140, R147 to R151). -/

namespace Sys2Proof.Machine

/-! ## What an ALU instruction leaves unchanged -/

/-- The ALU instructions write PC and general registers, and of the other parts at most the draw counter. -/
theorem unchanged_advance_regs (s : State) {v : Vector Byte 16} {draws : Nat} {parts : List Part} {regs : List Reg}
    (hv : ∀ r : Reg, r ∉ regs → v[r.val] = s.readV r) (hdraws : .draws ∉ parts → draws = s.draws) :
    Unchanged parts regs s { s.advance with v := v, draws := draws } := by
  refine ⟨fun p hp => ?_, hv⟩
  cases p with
  | draws => exact hdraws hp
  | stack => exact ⟨rfl, rfl⟩
  | memory => exact fun _ => rfl
  | screen => exact fun _ _ => rfl
  | index | delayTimer | soundTimer | keypad | mode | config | reports | loadResults | schedule => rfl

/-! ## One register written -/

theorem readV_writeV_self (s : State) (x : Reg) (b : Byte) : (s.writeV x b).readV x = b := by
  rw [readV_writeV, if_pos rfl]

theorem readV_writeV_of_notMem (s : State) {x r : Reg} (b : Byte) (h : r ∉ [x]) : (s.writeV x b).readV r = s.readV r := by
  rw [readV_writeV, if_neg fun hr => h (List.mem_singleton.mpr hr)]

theorem unchanged_advance_writeV (s : State) (x : Reg) (b : Byte) : Unchanged [] [x] s (s.advance.writeV x b) :=
  unchanged_advance_regs s (fun _ hr => readV_writeV_of_notMem s.advance b hr) fun _ => rfl

theorem unchanged_draw_writeV (s : State) (x : Reg) (b : Byte) :
    Unchanged [.draws] [x] s (s.advance.draw.2.writeV x b) :=
  unchanged_advance_regs s (fun _ hr => readV_writeV_of_notMem s.advance.draw.2 b hr)
    fun h => absurd (List.mem_singleton_self _) h

/-- Settles O33: one write of Vx after the advance, VF or not. -/
theorem loadsWriteVx : Obligations.LoadsWriteVx := fun x y nn s =>
  ⟨⟨_, exec_ldImm s x nn, readV_writeV_self .., pcValue_toNat _, unchanged_advance_writeV s x _⟩,
    ⟨_, exec_ldReg s x y, readV_writeV_self .., pcValue_toNat _, unchanged_advance_writeV s x _⟩⟩

/-- Settles O34: one write of Vx after the advance; `addBytes` wraps. -/
theorem addConstantWrapsWithoutFlag : Obligations.AddConstantWrapsWithoutFlag := fun x nn s =>
  ⟨_, exec_addImm s x nn, by rw [readV_writeV_self, addBytes_toNat], pcValue_toNat _, unchanged_advance_writeV s x _⟩

/-- Settles O35: one write of Vx after the advance, of a bitwise operation. -/
theorem logicActsBitByBit : Obligations.LogicActsBitByBit := by
  intro x y s
  refine ⟨⟨_, exec_orReg s x y, pcValue_toNat _, unchanged_advance_writeV s x _, fun k => ?or⟩,
    ⟨_, exec_andReg s x y, pcValue_toNat _, unchanged_advance_writeV s x _, fun k => ?and⟩,
    ⟨_, exec_xorReg s x y, pcValue_toNat _, unchanged_advance_writeV s x _, fun k => ?xor⟩⟩
  case or => rw [readV_writeV_self, BitVec.getLsbD_or]
  case and => rw [readV_writeV_self, BitVec.getLsbD_and]
  case xor => rw [readV_writeV_self, BitVec.getLsbD_xor]

/-- Settles O39: whatever byte is drawn, the mask clears the bits outside nn. -/
theorem randomIsMaskedDraw : Obligations.RandomIsMaskedDraw := by
  intro x nn s
  refine ⟨_, exec_rnd s x nn, readV_writeV_self .., rfl, ?masked, pcValue_toNat _, unchanged_draw_writeV s x _⟩
  case masked =>
    rw [readV_writeV_self, BitVec.and_assoc, BitVec.and_not_self]
    exact BitVec.and_zero

/-! ## Result and flag written -/

section
variable {s : State} {x : Reg} {r : Byte} {c : Bool}

/-- Vx holds the result, unless it is VF and the flag is written over it (R140). -/
theorem readV_writeResultFlag_dest (h : x ≠ vf ∨ s.cfg.vfOrder = .resultLast) :
    (s.writeResultFlag x r c).readV x = r := by
  rw [readV_writeResultFlag]
  cases hord : s.cfg.vfOrder with
  | flagLast =>
    have hx : x ≠ vf := h.resolve_right (by rw [hord]; nofun)
    simp only [if_neg hx, if_true]
  | resultLast => exact if_pos rfl

/-- VF holds the flag, unless it is Vx and the result is written over it (R140). -/
theorem readV_writeResultFlag_vf (h : x ≠ vf ∨ s.cfg.vfOrder = .flagLast) :
    (s.writeResultFlag x r c).readV vf = flagByte c := by
  rw [readV_writeResultFlag]
  cases hord : s.cfg.vfOrder with
  | flagLast => exact if_pos rfl
  | resultLast =>
    have hx : x ≠ vf := h.resolve_right (by rw [hord]; nofun)
    simp only [if_neg hx.symm, if_true]

theorem readV_writeResultFlag_of_notMem {q : Reg} (h : q ∉ [x, vf]) : (s.writeResultFlag x r c).readV q = s.readV q := by
  obtain ⟨hx, hvf⟩ : q ≠ x ∧ q ≠ vf := by simpa using h
  rw [readV_writeResultFlag]
  cases s.cfg.vfOrder <;> simp only [if_neg hx, if_neg hvf]

theorem unchanged_advance_writeResultFlag : Unchanged [] [x, vf] s (s.advance.writeResultFlag x r c) := by
  have hv (q : Reg) (hq : q ∉ [x, vf]) : (s.advance.writeResultFlag x r c).readV q = s.readV q :=
    readV_writeResultFlag_of_notMem hq
  rw [writeResultFlag_eq]
  exact unchanged_advance_regs s hv fun _ => rfl

/-- An instruction that writes a result with property `R` and a flag of value `f` (R140). -/
theorem exec_result_flag {i : Instr} {R : Byte → Prop} {f : Nat}
    (h : exec i s = .next (s.advance.writeResultFlag x r c)) (hresult : R r) (hflag : (flagByte c).toNat = f) :
    ∃ t, exec i s = .next t ∧ t.pc.toNat = (s.pc.toNat + 2) % 0x1000 ∧ Unchanged [] [x, vf] s t ∧
      (x ≠ vf ∨ s.cfg.vfOrder = .resultLast → R (t.readV x)) ∧
      (x ≠ vf ∨ s.cfg.vfOrder = .flagLast → (t.readV vf).toNat = f) := by
  refine ⟨_, h, ?pc, unchanged_advance_writeResultFlag, fun hx => ?dest, fun hx => ?vf⟩
  case pc => rw [writeResultFlag_pc, advance_pc, pcValue_toNat]
  case dest => rwa [readV_writeResultFlag_dest (s := s.advance) hx]
  case vf => rwa [readV_writeResultFlag_vf (s := s.advance) hx]

end

/-- Settles O36: the sum and the carry of `exec_addReg`. -/
theorem addWritesSumAndCarry : Obligations.AddWritesSumAndCarry := fun x y s =>
  exec_result_flag (R := fun b => b.toNat = _) (exec_addReg s x y) (addBytes_toNat ..) (carry_toNat ..)

/-- Settles O37: the difference and NOT borrow of `exec_sub`, and of `exec_subn` with the operands exchanged. -/
theorem subtractsWriteDifferenceAndNoBorrow : Obligations.SubtractsWriteDifferenceAndNoBorrow := fun x y s =>
  ⟨exec_result_flag (R := fun b => (b.toNat : Int) = _) (exec_sub s x y) (subBytes_toNat ..) (noBorrow_toNat ..),
    exec_result_flag (R := fun b => (b.toNat : Int) = _) (exec_subn s x y) (subBytes_toNat ..) (noBorrow_toNat ..)⟩

theorem shiftOperand_eq (s : State) (x y : Reg) :
    s.shiftOperand x y = if s.cfg.shiftSource = .vx then s.readV x else s.readV y := by
  unfold State.shiftOperand
  cases s.cfg.shiftSource <;> rfl

/-- Settles O38: the shift of the operand that SHIFT_SOURCE names, and the bit shifted out. -/
theorem shiftsWriteResultAndLostBit : Obligations.ShiftsWriteResultAndLostBit := by
  rintro x y s a rfl
  rw [← shiftOperand_eq]
  exact ⟨exec_result_flag (R := (· = _)) (exec_shr s x y) (shiftRight_eq _) (shiftedOutRight_toNat _),
    exec_result_flag (R := (· = _)) (exec_shl s x y) (shiftLeft_eq _) (shiftedOutLeft_toNat _)⟩

end Sys2Proof.Machine
end

section
/-! PROOFS. The family of 44_index_memory.md: the writes of I (R171 to R173), the stores and the load through I (R174 to
R176), and that a load after a store reproduces the registers (R177). -/

namespace Sys2Proof.Machine

/-! ## What an index or memory instruction leaves unchanged -/

/-- The instructions that write I or store write, of the parts and registers, at most I and memory. -/
theorem unchanged_advance_index_memory (s : State) {i : Word} {mem : List Host.Cell} {parts : List Part}
    (hi : .index ∉ parts → i = s.i) (hmem : .memory ∉ parts → mem = s.mem) :
    Unchanged parts [] s { s.advance with i := i, mem := mem } := by
  refine ⟨fun p hp => ?_, fun _ _ => rfl⟩
  cases p with
  | index => exact hi hp
  | memory => exact fun a => congrArg (Memory.read s.cfg.font · a) (hmem hp)
  | stack => exact ⟨rfl, rfl⟩
  | screen => exact fun _ _ => rfl
  | delayTimer | soundTimer | keypad | mode | config | draws | reports | loadResults | schedule => rfl

theorem unchanged_advance_setI (s : State) (w : Word) : Unchanged [.index] [] s (s.advance.setI w) :=
  unchanged_advance_index_memory s (fun h => absurd (List.mem_singleton_self _) h) fun _ => rfl

/-- Storing bytes is a write of memory alone. -/
theorem storeBytes_eq (s : State) (a : Nat) (bs : List Byte) :
    s.storeBytes a bs = { s with mem := (s.storeBytes a bs).mem } := by
  induction bs generalizing s a with
  | nil => rfl
  | cons b bs ih => exact ih (s.storeByte a b) (a + 1)

theorem unchanged_advance_storeBytes (s : State) (a : Nat) (bs : List Byte) :
    Unchanged [.memory] [] s (s.advance.storeBytes a bs) := by
  rw [storeBytes_eq]
  exact unchanged_advance_index_memory s (fun _ => rfl) fun h => absurd (List.mem_singleton_self _) h

/-- Loading V0..Vx writes no register above x, and no other part. -/
theorem unchanged_advance_loadRegs (s : State) (a : Nat) (x : Reg) :
    Unchanged [] ((List.finRange 16).filter (· ≤ x)) s (s.advance.loadRegs a x) := by
  have habove (r : Reg) (hr : r ∉ (List.finRange 16).filter (· ≤ x)) : (s.advance.loadRegs a x).readV r = s.readV r := by
    rw [readV_loadRegs]
    exact if_neg fun hle => hr (by simpa using hle)
  exact unchanged_advance_regs s habove fun _ => rfl

/-! ## Writes of I -/

/-- The glyph address of a byte fits in I, so it is not wrapped. -/
theorem glyphAddr_toNat (v : Byte) : (glyphAddr v).toNat = 0x050 + v.toNat * 5 := by
  rw [glyphAddr, BitVec.toNat_ofNat]; omega

/-- Settles O40: nnn is extended with zeros, and a glyph address fits in I. -/
theorem indexLoadedAndPointed : Obligations.IndexLoadedAndPointed := fun x nnn s =>
  ⟨⟨_, exec_ldI s nnn, BitVec.toNat_setWidth_of_le (by decide), pcValue_toNat _, unchanged_advance_setI s _⟩,
    ⟨_, exec_ldFVx s x, glyphAddr_toNat _, pcValue_toNat _, unchanged_advance_setI s _⟩⟩

theorem indexSum_toNat (s : State) (v : Byte) : (s.indexSum v).toNat =
    (s.i.toNat + v.toNat) % (if s.cfg.indexAddWrap = .mod65536 then 0x10000 else 0x1000) := by
  unfold State.indexSum
  cases s.cfg.indexAddWrap with
  | mod65536 => rw [if_pos rfl, BitVec.toNat_ofNat, Nat.mod_mod]
  | mod4096 => rw [if_neg nofun, BitVec.toNat_ofNat]; omega

/-- Settles O41: the sum under each value of INDEX_ADD_WRAP; the write of I leaves VF. -/
theorem indexSumWraps : Obligations.IndexSumWraps := fun x s =>
  ⟨_, exec_addIVx s x, indexSum_toNat s _, pcValue_toNat _, unchanged_advance_setI s _⟩

/-! ## Stores through I -/

section
variable (s : State) {a c k : Nat} {bs : List Byte}

theorem loadByte_storeBytes_add (hk : k < bs.length) : (s.storeBytes a bs).loadByte (a + k) = bs[k] := by
  rw [loadByte_storeBytes, dif_pos ⟨Nat.le_add_right a k, by omega⟩]
  simp only [Nat.add_sub_cancel_left]

theorem loadByte_storeBytes_outside (hc : ¬(a ≤ c ∧ c < a + bs.length)) :
    (s.storeBytes a bs).loadByte c = s.loadByte c := by
  rw [loadByte_storeBytes, dif_neg (by omega)]

end

/-- The digits of a byte, each below 256 and so stored whole (44_index_memory.md R174). -/
theorem bcdDigits_map_toNat (v : Byte) :
    (bcdDigits v).map BitVec.toNat = [v.toNat / 100, v.toNat / 10 % 10, v.toNat % 10] := by
  have hv : v.toNat < 256 := v.isLt
  simp only [bcdDigits, List.map_cons, List.map_nil, BitVec.toNat_ofNat, List.cons.injEq, and_true]
  omega

/-- Settles O42: the three digits are the bytes stored at I. -/
theorem decimalDigitsStored : Obligations.DecimalDigitsStored := by
  intro x s
  rcases exec_ldBVx s x with ⟨hvalid, h⟩ | ⟨hinvalid, h⟩
  · have hdigit (k : Nat) (hk : k < 3) :
        ((s.advance.storeBytes s.i.toNat (bcdDigits (s.readV x))).loadByte (s.i.toNat + k)).toNat =
          [(s.readV x).toNat / 100, (s.readV x).toNat / 10 % 10, (s.readV x).toNat % 10][k] := by
      rw [loadByte_storeBytes_add _ hk]
      exact (List.getElem_map ..).symm.trans (List.getElem_of_eq (bcdDigits_map_toNat _) hk)
    refine ⟨fun _ => ⟨_, h, hdigit 0 (by decide), hdigit 1 (by decide), hdigit 2 (by decide), fun a ha => ?outside, ?pc,
      unchanged_advance_storeBytes s _ _⟩, fun hinvalid => by omega⟩
    case outside => exact loadByte_storeBytes_outside s.advance (by rw [bcdDigits_length]; omega)
    case pc => rw [storeBytes_pc, advance_pc, pcValue_toNat]
  · exact ⟨fun hvalid => by omega, fun _ => h⟩

/-- Settles O43: the bytes stored at I are V0..Vx. -/
theorem registersStored : Obligations.RegistersStored := by
  intro x s
  rcases exec_ldMemVx s x with ⟨hvalid, h⟩ | ⟨hinvalid, h⟩
  · refine ⟨fun _ => ⟨_, h, fun r hr => ?stored, fun a ha => ?outside, ?pc, unchanged_advance_storeBytes s _ _⟩,
      fun hinvalid => by omega⟩
    case stored =>
      have hlen : r.val < (s.regsUpTo x).length := by rw [regsUpTo_length]; exact Nat.lt_succ_of_le hr
      rw [loadByte_storeBytes_add _ hlen, regsUpTo_getElem]
    case outside => exact loadByte_storeBytes_outside s.advance (by rw [regsUpTo_length]; omega)
    case pc => rw [storeBytes_pc, advance_pc, pcValue_toNat]
  · exact ⟨fun hvalid => by omega, fun _ => h⟩

/-! ## The load through I -/

/-- Settles O44: V0..Vx are the bytes at I, and only they and PC are written. -/
theorem registersLoaded : Obligations.RegistersLoaded := by
  intro x s
  rcases exec_ldVxMem s x with ⟨hvalid, h⟩ | ⟨hinvalid, h⟩
  · obtain ⟨hparts, -⟩ := unchanged_advance_loadRegs s s.i.toNat x
    refine ⟨fun _ => ⟨_, h, fun r hr => ?loaded, fun r hr => ?above, pcValue_toNat _,
      fun p => hparts p List.not_mem_nil⟩, fun hinvalid => by omega⟩
    case loaded => rw [readV_loadRegs, if_pos hr, advance_loadByte]
    case above => rw [readV_loadRegs, if_neg hr.not_ge, advance_readV]
  · exact ⟨fun hvalid => by omega, fun _ => h⟩

/-- Settles O45: the store leaves I, so the load reads the bytes stored. -/
theorem storeThenLoadReproduces : Obligations.StoreThenLoadReproduces := by
  intro x s t u w hvalid ht hmem hi hw r hr
  obtain ⟨t', ht', hstored, -, -, hparts, -⟩ := (registersStored x s).left hvalid
  cases ht'.symm.trans ht
  have hui : u.i = s.i := hi.trans (hparts .index (by decide))
  obtain ⟨w', hw', hloaded, -⟩ := (registersLoaded x u).left (by rwa [hui])
  cases hw'.symm.trans hw
  calc w.readV r
    _ = u.loadByte (u.i.toNat + r.val) := hloaded r hr
    _ = t.loadByte (s.i.toNat + r.val) := by rw [hmem, hui]
    _ = s.readV r := hstored r hr

end Sys2Proof.Machine
end

section
/-! PROOFS. The family of 45_keypad_timers.md: the skips on a key (R190 to R192), the timers (R193, R196, R197), and the
wait for a key with its poll (R194, R195). -/

namespace Sys2Proof.Machine

/-! ## The frame -/

/-- The keypad and timer instructions and the poll write PC, general registers, the timers and the mode, nothing else. -/
theorem unchanged_regs_timers_mode (s : State) {v : Vector Byte 16} {pc : Word} {dt st : Byte} {mode : Mode}
    {parts : List Part} {regs : List Reg} (hv : ∀ r : Reg, r ∉ regs → v[r.val] = s.readV r)
    (hdt : .delayTimer ∉ parts → dt = s.dt) (hst : .soundTimer ∉ parts → st = s.st)
    (hmode : .mode ∉ parts → mode = s.mode) :
    Unchanged parts regs s { s with v := v, pc := pc, dt := dt, st := st, mode := mode } := by
  refine ⟨fun p hp => ?_, hv⟩
  cases p with
  | delayTimer => exact hdt hp
  | soundTimer => exact hst hp
  | mode => exact hmode hp
  | stack => exact ⟨rfl, rfl⟩
  | memory => exact fun _ => rfl
  | screen => exact fun _ _ => rfl
  | index | keypad | config | draws | reports | loadResults | schedule => rfl

theorem unchanged_advance_setDt (s : State) (b : Byte) : Unchanged [.delayTimer] [] s (s.advance.setDt b) :=
  unchanged_regs_timers_mode s (fun _ _ => rfl) (fun h => absurd (List.mem_singleton_self _) h) (fun _ => rfl)
    fun _ => rfl

theorem unchanged_advance_setSt (s : State) (b : Byte) : Unchanged [.soundTimer] [] s (s.advance.setSt b) :=
  unchanged_regs_timers_mode s (fun _ _ => rfl) (fun _ => rfl) (fun h => absurd (List.mem_singleton_self _) h)
    fun _ => rfl

theorem unchanged_advance_setPc_setMode (s : State) (n : Nat) (m : Mode) :
    Unchanged [.mode] [] s ((s.advance.setPc n).setMode m) :=
  unchanged_regs_timers_mode s (fun _ _ => rfl) (fun _ => rfl) (fun _ => rfl)
    fun h => absurd (List.mem_singleton_self _) h

theorem unchanged_writeV_setPc_setMode (s : State) (x : Reg) (b : Byte) (n : Nat) (m : Mode) :
    Unchanged [.mode] [x] s (((s.writeV x b).setPc n).setMode m) :=
  unchanged_regs_timers_mode s (fun _ hr => readV_writeV_of_notMem s b hr) (fun _ => rfl) (fun _ => rfl)
    fun h => absurd (List.mem_singleton_self _) h

/-! ## The wait for a key -/

section
variable {s : State} {x : Reg} {b : Keys}

theorem pollKeypad_of_no_new_press (hold : ∀ k : Fin 16, s.keyPressed k = true → b.getLsbD k.val = true) :
    pollKeypad x b s = s.setMode (.awaitingKey x s.keys) := by
  rcases pollKeypad_cases x b s with ⟨hpoll, -⟩ | ⟨k, hpressed, hreleased, -, -⟩
  · exact hpoll
  · cases hreleased.symm.trans (hold k hpressed)

/-- Of two new presses, each the lowest, neither is below the other; so the key the poll takes is `k`. -/
theorem pollKeypad_of_lowest_new_press {k : Fin 16} (hpressed : s.keyPressed k = true)
    (hreleased : b.getLsbD k.val = false)
    (hlow : ∀ j : Fin 16, j < k → s.keyPressed j = true → b.getLsbD j.val = true) :
    pollKeypad x b s = ((s.writeV x (BitVec.ofNat 8 k.val)).setPc (s.pc.toNat + 2)).setMode .running := by
  rcases pollKeypad_cases x b s with ⟨-, hold⟩ | ⟨j, hjpressed, hjreleased, hjlow, hpoll⟩
  · cases hreleased.symm.trans (hold k hpressed)
  · have hkj : ¬ k < j := fun h => Bool.false_ne_true (hreleased.symm.trans (hjlow k h hpressed))
    have hjk : ¬ j < k := fun h => Bool.false_ne_true (hjreleased.symm.trans (hlow j h hjpressed))
    obtain rfl : j = k := le_antisymm (not_lt.mp hkj) (not_lt.mp hjk)
    exact hpoll

end

/-- Settles O50: the tick is `pollKeypad`, in its two cases; a key number fits in a byte. -/
theorem keyPollTakesLowestNewPress : Obligations.KeyPollTakesLowestNewPress := by
  intro x b s hm
  have htick := instrTick_awaitingKey hm
  refine ⟨fun hold => ?wait, fun k hpressed hreleased hlow => ?taken⟩
  case wait => rw [htick, pollKeypad_of_no_new_press hold]; rfl
  case taken =>
    rw [pollKeypad_of_lowest_new_press hpressed hreleased hlow] at htick
    refine ⟨_, htick, ?key, pcValue_toNat _, rfl, unchanged_writeV_setPc_setMode s x _ _ _⟩
    case key =>
      rw [setMode_readV, setPc_readV, readV_writeV_self]
      exact Nat.mod_eq_of_lt (by omega)

/-- Settles O49: PC is written back after the advance, and the mode holds the keypad. -/
theorem keyWaitEntered : Obligations.KeyWaitEntered := fun x s =>
  ⟨_, exec_ldVxK s x, rfl, pcValue_toNat _, unchanged_advance_setPc_setMode s _ _⟩

/-! ## The timers -/

/-- Settles O48: one write after the advance, of Vx, DT or ST. -/
theorem timersReadAndWritten : Obligations.TimersReadAndWritten := fun x s =>
  ⟨⟨_, exec_ldVxDt s x, readV_writeV_self .., pcValue_toNat _, unchanged_advance_writeV s x _⟩,
    ⟨_, exec_ldDtVx s x, rfl, pcValue_toNat _, unchanged_advance_setDt s _⟩,
    ⟨_, exec_ldStVx s x, rfl, pcValue_toNat _, unchanged_advance_setSt s _⟩⟩

/-! ## The skips on a key -/

section
variable {s : State} {v : Byte}

theorem keyIndex_eq_ok {k : Fin 16} (hk : v.toNat = k.val ∨ (s.cfg.keyIndex = .lowNibble ∧ v.toNat % 16 = k.val)) :
    s.keyIndex v = .ok k := by
  rcases keyIndex_cases s v with ⟨j, hj, hval⟩ | ⟨hgt, hfault, -⟩
  · obtain rfl : j = k := Fin.ext (by omega)
    exact hj
  · rcases hk with hk | ⟨hlow, -⟩
    · omega
    · cases hfault.symm.trans hlow

theorem keyIndex_eq_error (hgt : 15 < v.toNat) (hfault : s.cfg.keyIndex = .fault) :
    s.keyIndex v = .error (.keyIndexOutOfRange v) := by
  rcases keyIndex_cases s v with ⟨k, -, hk | ⟨hlow, -, -⟩⟩ | ⟨-, -, h⟩
  · omega
  · cases hfault.symm.trans hlow
  · exact h

/-- An instruction whose outcome goes by the key number `v`, as `exec_skp` and `exec_sknp` say it: by the values of `v`
and KEY_INDEX, the outcome for the key or the fault (R190). -/
theorem exec_by_keyIndex {i : Instr} {f : Fin 16 → State} {u : State}
    (h : (∃ k, s.keyIndex v = .ok k ∧ exec i s = .next (f k)) ∨
      (15 < v.toNat ∧ s.cfg.keyIndex = .fault ∧ exec i s = .next u)) :
    (∀ k : Fin 16, v.toNat = k.val ∨ (s.cfg.keyIndex = .lowNibble ∧ v.toNat % 16 = k.val) → exec i s = .next (f k)) ∧
    (15 < v.toNat → s.cfg.keyIndex = .fault → exec i s = .next u) := by
  rcases h with ⟨j, hj, hexec⟩ | ⟨hgt, hfault, hexec⟩
  · refine ⟨fun k hk => ?_, fun hgt hfault => ?_⟩
    · cases hj.symm.trans (keyIndex_eq_ok hk)
      exact hexec
    · cases hj.symm.trans (keyIndex_eq_error hgt hfault)
  · refine ⟨fun k hk => ?_, fun _ _ => hexec⟩
    cases (keyIndex_eq_ok hk).symm.trans (keyIndex_eq_error hgt hfault)

end

/-- Settles O47: Ex9E skips if the key is pressed, ExA1 unless, and a key number out of range faults. -/
theorem skipsOnKey : Obligations.SkipsOnKey := by
  intro x s
  obtain ⟨hskp, hskpFault⟩ := exec_by_keyIndex (exec_skp s x)
  obtain ⟨hsknp, hsknpFault⟩ := exec_by_keyIndex (exec_sknp s x)
  refine ⟨fun k hk => ⟨?skp, ?sknp⟩, fun hgt hfault => ⟨hskpFault hgt hfault, hsknpFault hgt hfault⟩⟩
  case skp => exact exec_skip_if (hskp k hk) Iff.rfl
  case sknp => exact exec_skip_unless (hsknp k hk) (by rw [Bool.not_eq_true', Bool.not_eq_true])

end Sys2Proof.Machine
end

section
/-! PROOFS. The family of 60_exceptions.md: what an instruction tick can leave, said once (`TickEffect`), the faults and
the suspension (R210 to R215, R232), the timer tick and runs of events (R225, R227, R231), the ports (R236 to R242), and
the reference scheduler (R230). -/

namespace Sys2Proof.Machine

/-! ## What an instruction tick can do -/

/-- What an instruction tick can leave of the state `s` at its start, by its mode and by what is fetched.
`instrTick_effect` ties it to `instrTick`. -/
inductive TickEffect (s : State) : State → Prop where
  | halted (f : FaultRecord) : s.mode = .halted f → TickEffect s s
  | poll (x : Reg) (b : Keys) : s.mode = .awaitingKey x b → TickEffect s (pollKeypad x b s)
  | fetchFault : s.mode = .running → 0xFFF ≤ s.pc.toNat →
      TickEffect s (s.takeFault (.addressOutOfRange (max s.pc.toNat 0x1000)) none)
  | unknown : s.mode = .running → s.pc.toNat < 0xFFF → TickEffect s (unknownWord (s.wordAt s.pc.toNat) s)
  | known {i : Instr} {t : State} : s.mode = .running → s.pc.toNat < 0xFFF → encode i = s.wordAt s.pc.toNat →
      InstrEffect s i t → TickEffect s t

/-- The unknown variant carries the raw word (30_encoding.md R75). -/
theorem eq_of_decode_unknown {w u : Word} (h : decode w = .unknown u) : u = w :=
  ((unknownWordsAreTheTabled w u).mp h).left

section
variable {s t : State}

/-- Every instruction tick answers a next state, and that state is one `TickEffect` describes. -/
theorem instrTick_effect (s : State) : ∃ t, instrTick s = .next t ∧ TickEffect s t := by
  cases hm : s.mode with
  | halted f => exact ⟨s, instrTick_halted hm, .halted f hm⟩
  | awaitingKey x b => exact ⟨_, instrTick_awaitingKey hm, .poll x b hm⟩
  | running =>
    rcases le_or_gt 0xFFF s.pc.toNat with hpc | hpc
    · exact ⟨_, instrTick_fetchFault hm hpc, .fetchFault hm hpc⟩
    cases hd : decode (s.wordAt s.pc.toNat) with
    | unknown u =>
      obtain rfl := eq_of_decode_unknown hd
      exact ⟨_, instrTick_unknown hm hpc hd, .unknown hm hpc⟩
    | known i =>
      obtain ⟨t, ht, he⟩ := exec_effect s i
      exact ⟨t, (instrTick_known hm hpc hd).trans ht, .known hm hpc (encode_of_decode hd) he⟩

/-- The inversion of `instrTick`. -/
theorem TickEffect.of_instrTick (h : instrTick s = .next t) : TickEffect s t := by
  obtain ⟨u, hu, he⟩ := instrTick_effect s
  cases hu.symm.trans h
  exact he

/-! ## A step answers a next state -/

theorem applyEvent_next (e : Event) (s : State) : ∃ t, applyEvent e s = .next t := by
  cases e with
  | instrTick =>
    obtain ⟨t, ht, -⟩ := instrTick_effect s
    exact ⟨t, ht⟩
  | timerTick | setKeys | load | reset => exact ⟨_, rfl⟩

theorem step_of_scheduled {e : Event} {rest : List Event} (h : s.schedule = e :: rest) :
    step s = applyEvent e { s with schedule := rest } := by
  unfold step; rw [h]

end

/-- Settles O8: the equation of `step` for a schedule that begins with an event. -/
theorem stepTakesScheduledEvent : Obligations.StepTakesScheduledEvent := fun _ _ _ => step_of_scheduled

/-- Settles O16: an instruction tick and every other transition answers a next state. -/
theorem stepAlwaysAnswersNext : Obligations.StepAlwaysAnswersNext := by
  intro s
  cases hsched : s.schedule with
  | nil => rw [step_of_nothing_scheduled hsched]; exact applyEvent_next .instrTick s
  | cons e rest => rw [step_of_scheduled hsched]; exact applyEvent_next e _

/-! ## Suspension -/

/-- Settles O13: any instruction but Fx0A keeps the mode or faults, and a tick in AWAITING_KEY that does not end in
RUNNING waits on with the keypad as baseline. -/
theorem onlyKeyWaitSuspends : Obligations.OnlyKeyWaitSuspends := by
  refine ⟨fun i s t ht hnot hwait => ?starts, fun s t x b hm ht hne => ?waitsOn⟩
  case starts =>
    obtain ⟨x, b, hwait⟩ := hwait
    by_contra hi
    rcases (InstrEffect.of_exec ht).mode (not_exists.mp hi) with hsame | ⟨f, hhalted⟩
    · exact hnot x b (hsame.symm.trans hwait)
    · cases hhalted.symm.trans hwait
  case waitsOn =>
    rcases instrTick_mode_of_awaitingKey hm ht with ⟨hwait, -⟩ | ⟨hrunning, -⟩
    · exact hwait
    · exact absurd hrunning hne

/-! ## Faults -/

section
variable {s t : State} {f : FaultRecord}

theorem unfaulted_iff : s.unfaulted = true ↔ ∀ f, s.mode ≠ .halted f := by
  unfold State.unfaulted
  cases s.mode <;> simp

/-- An instruction that takes an unfaulted state to HALTED has faulted: the fault is one of its own, and the tick's
effect is R213's alone. -/
theorem InstrEffect.fault_of_halted {i : Instr} (he : InstrEffect s i t) (hs : s.unfaulted = true)
    (ht : t.mode = .halted f) :
    ∃ k, InstrFault s i k ∧ f = ⟨k, s.pc, some (encode i)⟩ ∧ t = s.takeFault k (some (encode i)) := by
  have hmode (u : State) (hu : u.mode = s.mode) : u.mode ≠ .halted f := hu ▸ unfaulted_iff.mp hs f
  cases he with
  | fault hf => exact ⟨_, hf, (Mode.halted.inj ht).symm, rfl⟩
  | store bs _ => exact absurd ht (hmode _ (storeBytes_mode s.advance s.i.toNat bs))
  | jump | data | ldI | addIVx | ldFVx | call | ret => exact absurd ht (hmode _ rfl)
  | ldVxK x => cases ht

/-- The code of a record the core can make is one of R211's for an instruction tick: not that of a rejected load. -/
theorem FaultRecord.code_bounds (h : f.legal = true) : 1 ≤ f.kind.code ∧ f.kind.code ≤ 5 := by
  obtain ⟨k, a, w⟩ := f
  cases k with
  | programTooLarge n => cases h
  | unknownInstruction | stackOverflow | stackUnderflow | addressOutOfRange | keyIndexOutOfRange => simp [Fault.code]

/-- A tick of an unknown word that ends in HALTED took the fault of R99. -/
theorem unknownWord_fault_of_halted {w : Word} (hs : s.mode = .running) (ht : (unknownWord w s).mode = .halted f) :
    f = ⟨.unknownInstruction, s.pc, some w⟩ ∧ unknownWord w s = s.takeFault .unknownInstruction (some w) := by
  cases hpol : s.cfg.unknownPolicy with
  | continueOn => rw [unknownWord_continue w hpol] at ht; cases hs.symm.trans ht
  | halt =>
    have hw := unknownWord_halt w hpol
    rw [hw] at ht
    exact ⟨(Mode.halted.inj ht).symm, hw⟩

end

/-- Settles O14: a tick from RUNNING halts by a fetch fault, by an unknown word under Halt, or by the fault of an
instruction whose encoding stands at PC; each of them is `takeFault`. -/
theorem faultLeavesStartOfTick : Obligations.FaultLeavesStartOfTick := by
  intro s t f hs ht hf
  cases TickEffect.of_instrTick ht with
  | halted _ h => cases hs.symm.trans h
  | poll _ _ h => cases hs.symm.trans h
  | fetchFault _ hpc =>
    obtain rfl := Mode.halted.inj hf
    exact ⟨rfl, rfl, (if_neg hpc.not_gt).symm, FaultRecord.code_bounds (by simp [FaultRecord.legal])⟩
  | unknown _ hpc =>
    obtain ⟨rfl, hfault⟩ := unknownWord_fault_of_halted hs hf
    exact ⟨hfault, rfl, (if_pos hpc).symm, FaultRecord.code_bounds rfl⟩
  | known _ hpc hword he =>
    have hunfaulted : s.unfaulted = true := unfaulted_iff.mpr fun _ h => nomatch hs.symm.trans h
    obtain ⟨k, hk, rfl, rfl⟩ := he.fault_of_halted hunfaulted hf
    exact ⟨rfl, rfl, by rw [if_pos hpc, hword], FaultRecord.code_bounds (hk.legal s.pc)⟩

/-- Settles O15: `InstrFault` lists the fault of each instruction under its condition. -/
theorem eachInstructionHasItsFault : Obligations.EachInstructionHasItsFault := by
  intro i s t f hs ht hf
  obtain ⟨k, hk, rfl, -⟩ := (InstrEffect.of_exec ht).fault_of_halted hs hf
  have hinvalid : 0xFFF < max s.i.toNat 0x1000 := by omega
  cases hk with
  | call nnn hfull => exact .inl ⟨rfl, ⟨nnn, rfl⟩, hfull⟩
  | ret hempty => exact .inr (.inl ⟨rfl, rfl, hempty⟩)
  | drw x y n _ => exact .inr (.inr (.inl ⟨_, rfl, hinvalid, .inl ⟨x, y, n, rfl⟩⟩))
  | ldBVx x _ => exact .inr (.inr (.inl ⟨_, rfl, hinvalid, .inr ⟨x, .inl rfl⟩⟩))
  | ldMemVx x _ => exact .inr (.inr (.inl ⟨_, rfl, hinvalid, .inr ⟨x, .inr (.inl rfl)⟩⟩))
  | ldVxMem x _ => exact .inr (.inr (.inl ⟨_, rfl, hinvalid, .inr ⟨x, .inr (.inr rfl)⟩⟩))
  | skp x hv => exact .inr (.inr (.inr ⟨x, rfl, hv, .inl rfl⟩))
  | sknp x hv => exact .inr (.inr (.inr ⟨x, rfl, hv, .inr rfl⟩))

/-! ## Reachable states -/

theorem unknownWord_cfg (w : Word) (s : State) : (unknownWord w s).cfg = s.cfg := by
  unfold unknownWord; split <;> rfl

theorem pollKeypad_cfg (x : Reg) (b : Keys) (s : State) : (pollKeypad x b s).cfg = s.cfg := by
  unfold pollKeypad; split <;> rfl

theorem loadOperation_cfg (bytes : List Byte) (s : State) : (loadOperation bytes s).cfg = s.cfg := by
  unfold loadOperation loadProgram
  split_ifs
  · exact storeBytes_cfg s 0x200 bytes
  · rfl

theorem InstrEffect.cfg {s t : State} {i : Instr} (he : InstrEffect s i t) : t.cfg = s.cfg := by
  cases he with
  | store bs _ => exact storeBytes_cfg s.advance s.i.toNat bs
  | fault | jump | data | ldI | addIVx | ldFVx | call | ret | ldVxK => rfl

theorem TickEffect.cfg {s t : State} (he : TickEffect s t) : t.cfg = s.cfg := by
  cases he with
  | halted | fetchFault => rfl
  | poll x b _ => exact pollKeypad_cfg x b s
  | unknown _ _ => exact unknownWord_cfg _ s
  | known _ _ _ hi => exact hi.cfg

/-- No transition changes the configuration (10_state.md R21). -/
theorem applyEvent_cfg {s t : State} {e : Event} (ht : applyEvent e s = .next t) : t.cfg = s.cfg := by
  cases e with
  | instrTick => exact (TickEffect.of_instrTick ht).cfg
  | load bytes => cases ht; exact loadOperation_cfg bytes s
  | timerTick | setKeys | reset => cases ht; rfl

/-- Settles O22, by induction on the events from construction. -/
theorem reachableStatesMeetInvariant : Obligations.ReachableStatesMeetInvariant := by
  intro cfg s hs
  induction hs with
  | construct => exact ⟨constructionMeetsInvariant cfg, rfl⟩
  | event e _ ht ih =>
    obtain ⟨hinv, hcfg⟩ := ih
    exact ⟨applyEvent_inv hinv ht, (applyEvent_cfg ht).trans hcfg⟩

/-! ## The timer tick -/

theorem countDown_toNat (b : Byte) : (countDown b).toNat = b.toNat - 1 := by
  unfold countDown
  split_ifs with hb
  · rw [hb]; rfl
  · exact Nat.mod_eq_of_lt (by omega)

/-- Settles O51: one countdown of each timer, and no other write. -/
theorem timerTickCountsDown : Obligations.TimerTickCountsDown := fun s =>
  ⟨timerTick s, rfl, countDown_toNat s.dt, countDown_toNat s.st, rfl,
    unchanged_regs_timers_mode s (fun _ _ => rfl) (fun h => absurd (by decide) h) (fun h => absurd (by decide) h)
      fun _ => rfl⟩

theorem applyEvents_cons {e : Event} {es : List Event} {s t : State} (h : applyEvent e s = .next t) :
    applyEvents (e :: es) s = applyEvents es t := by
  rw [applyEvents, h]

/-- Settles O52, by induction on the number of ticks. -/
theorem timerTicksReachZero : Obligations.TimerTicksReachZero := by
  intro s n
  induction n generalizing s with
  | zero => exact ⟨s, rfl, rfl, rfl⟩
  | succ n ih =>
    obtain ⟨u, hu, hudt, hust, -⟩ := timerTickCountsDown s
    obtain ⟨t, ht, htdt, htst⟩ := ih u
    exact ⟨t, (applyEvents_cons hu).trans ht, by omega, by omega⟩

/-! ## A halted machine under a fair schedule -/

/-- In HALTED, ticks and key writes keep the mode, and a timer has lost 1 for each timer tick among them. -/
theorem applyEvents_of_halted {f : FaultRecord} (es : List Event)
    (hall : ∀ e ∈ es, e = .instrTick ∨ e = .timerTick ∨ ∃ k, e = .setKeys k) {s : State} (hm : s.mode = .halted f) :
    ∃ t, applyEvents es s = .next t ∧ t.mode = .halted f ∧ t.dt.toNat = s.dt.toNat - es.count .timerTick ∧
      t.st.toNat = s.st.toNat - es.count .timerTick := by
  induction es generalizing s with
  | nil => exact ⟨s, rfl, hm, rfl, rfl⟩
  | cons e es ih =>
    obtain ⟨he, hes⟩ := List.forall_mem_cons.mp hall
    rcases he with rfl | rfl | ⟨k, rfl⟩
    · obtain ⟨t, ht, hrest⟩ := ih hes hm
      exact ⟨t, (applyEvents_cons (e := .instrTick) (instrTick_halted hm)).trans ht, hrest⟩
    · obtain ⟨u, hu, hudt, hust, -⟩ := timerTickCountsDown s
      obtain ⟨t, ht, htm, htdt, htst⟩ := ih hes ((applyEvent_mode hu nofun nofun).trans hm)
      rw [List.count_cons_self]
      exact ⟨t, (applyEvents_cons hu).trans ht, htm, by omega, by omega⟩
    · obtain ⟨t, ht, hrest⟩ := ih hes (s := setKeys k s) hm
      exact ⟨t, (applyEvents_cons rfl).trans ht, hrest⟩

/-- A fair sequence begins with a run that has any number of timer ticks. -/
theorem Fair.exists_count_timerTick {events : Nat → Event} (hfair : Fair events) (N : Nat) :
    ∃ n, ((List.range n).map events).count .timerTick = N := by
  have hinf : {m | events m = .timerTick}.Infinite := by
    refine Set.infinite_of_forall_exists_gt fun n => ?_
    obtain ⟨m, hm, he⟩ := hfair.right (n + 1)
    exact ⟨m, he, hm⟩
  obtain ⟨n, hn⟩ := Nat.surjective_count_of_infinite_setOfPred hinf N
  refine ⟨n, ?_⟩
  rw [List.count_eq_countP, List.countP_map, ← hn, Nat.count]
  rfl

/-- Settles O53: the run with 255 timer ticks empties both timers. -/
theorem fairScheduleEmptiesTimers : Obligations.FairScheduleEmptiesTimers := by
  intro events s f hfair hm hevents
  obtain ⟨n, hn⟩ := hfair.exists_count_timerTick 255
  have hes : ∀ e ∈ (List.range n).map events, e = .instrTick ∨ e = .timerTick ∨ ∃ k, e = .setKeys k :=
    List.forall_mem_map.mpr fun k _ => hevents k
  obtain ⟨t, ht, htm, htdt, htst⟩ := applyEvents_of_halted _ hes hm
  rw [hn] at htdt htst
  have empty (b : Byte) : b.toNat - 255 = 0 := by omega
  exact ⟨n, t, ht, BitVec.eq_of_toNat_eq (htdt.trans (empty _)), BitVec.eq_of_toNat_eq (htst.trans (empty _)), htm⟩

/-! ## The ports -/

/-- Bit y*64+x of the framebuffer port is pixel (x, y) (R236, R238). -/
theorem fbPort_eq_pixel (s : State) {px : Fin 64} {py : Fin 32} {k : Fin 2048} (hk : k.val = py.val * 64 + px.val) :
    fbPort s k = Frame.pixel s.fb px py := by
  have hx : k.val % 64 = px.val := by omega
  have hy : k.val / 64 = py.val := by omega
  simp only [fbPort, hx, hy]

theorem soundPort_iff (s : State) : soundPort s = true ↔ s.st.toNat ≠ 0 := by
  rw [soundPort, bne_iff_ne, ne_eq, ← BitVec.toNat_inj]; rfl

/-- Settles O57: the framebuffer and sound ports by their lemmas, the others by definition. -/
theorem portsShowState : Obligations.PortsShowState := fun s =>
  ⟨fun _ _ _ => fbPort_eq_pixel s, rfl, soundPort_iff s, rfl, rfl⟩

/-! ## The reference scheduler -/

theorem timerHz_pos : 0 < timerHz := by decide

/-- A loop of R230 takes exactly its rounds' periods off the accumulator. -/
theorem accAfter_add_periods (acc hz : Rat) : acc = accAfter acc hz + ticksDue acc hz * (1 / hz) := by
  unfold accAfter; ring

/-- Settles O58: each of the two loops drains its accumulator below its period. -/
theorem schedulerDrainsAccumulators : Obligations.SchedulerDrainsAccumulators := by
  intro c dt hhz hcpu htimer hdt
  obtain ⟨hcpu0, hcpu1⟩ := accAfter_bounds (add_nonneg hcpu hdt) hhz
  obtain ⟨htimer0, htimer1⟩ := accAfter_bounds (add_nonneg htimer hdt) timerHz_pos
  exact ⟨_, _, _, rfl, rfl, accAfter_add_periods _ _, hcpu0, hcpu1, accAfter_add_periods _ _, htimer0, htimer1⟩

/-- What is left of the time `acc` when all its whole periods are taken off. -/
def leftover (acc hz : Rat) : Rat := acc - ⌊acc * hz⌋ / hz

theorem leftover_of_floor_eq_zero {acc hz : Rat} (h : ⌊acc * hz⌋ = 0) : leftover acc hz = acc := by
  rw [leftover, h]; simp

/-- Less than a period holds no whole one. -/
theorem floor_eq_zero_of_lt_period {acc hz : Rat} (h0 : 0 ≤ acc) (hhz : 0 < hz) (h1 : acc < 1 / hz) :
    ⌊acc * hz⌋ = 0 :=
  Int.floor_eq_zero_iff.mpr ⟨mul_nonneg h0 hhz.le, (lt_div_iff₀ hhz).mp h1⟩

/-- Draining the accumulator first does not change what is left after `t` more. -/
theorem leftover_accAfter {acc hz : Rat} (t : Rat) (h0 : 0 ≤ acc) (hhz : 0 < hz) :
    leftover (accAfter acc hz + t) hz = leftover (acc + t) hz := by
  rw [leftover, leftover, ← ticksDue_after h0 hhz, accAfter]
  push_cast
  ring

section
variable (c : Scheduler) (dt : Rat)

theorem count_instrTick_iteration : (c.iteration dt).1.count .instrTick = ticksDue (c.accCpu + dt) c.cpuHz := by
  simp [List.count_replicate]

theorem count_timerTick_iteration : (c.iteration dt).1.count .timerTick = ticksDue (c.accTimer + dt) timerHz := by
  simp [List.count_replicate]

theorem tick_of_mem_iteration {e : Event} (he : e ∈ (c.iteration dt).1) : e = .instrTick ∨ e = .timerTick := by
  rw [Scheduler.iteration_events, List.mem_append] at he
  exact he.imp List.eq_of_mem_replicate List.eq_of_mem_replicate

end

/-- No tick is due: each accumulator is below its period, as the start state and every iteration leave it (R230). -/
structure Scheduler.Drained (c : Scheduler) : Prop where
  cpuHz : 0 < c.cpuHz
  accCpu : 0 ≤ c.accCpu ∧ c.accCpu < 1 / c.cpuHz
  accTimer : 0 ≤ c.accTimer ∧ c.accTimer < 1 / timerHz

theorem Scheduler.drained_start {hz : Rat} (hhz : 0 < hz) : (Scheduler.start hz).Drained :=
  ⟨hhz, ⟨le_rfl, one_div_pos.mpr hhz⟩, le_rfl, one_div_pos.mpr timerHz_pos⟩

theorem Scheduler.Drained.iteration {c : Scheduler} (hc : c.Drained) {dt : Rat} (hdt : 0 ≤ dt) :
    (c.iteration dt).2.Drained where
  cpuHz := hc.cpuHz
  accCpu := accAfter_bounds (add_nonneg hc.accCpu.left hdt) hc.cpuHz
  accTimer := accAfter_bounds (add_nonneg hc.accTimer.left hdt) timerHz_pos

theorem tick_of_mem_run (c : Scheduler) (dts : List Rat) {e : Event} (he : e ∈ (c.run dts).1) :
    e = .instrTick ∨ e = .timerTick := by
  induction dts generalizing c with
  | nil => cases he
  | cons dt dts ih =>
    rw [Scheduler.run_cons, List.mem_append] at he
    exact he.elim (tick_of_mem_iteration c dt) (ih _)

/-- A run of iterations counts whole periods as one iteration of its total duration would, by induction on them. -/
theorem Scheduler.Drained.run {c : Scheduler} (hc : c.Drained) {dts : List Rat} (hdts : ∀ dt ∈ dts, 0 ≤ dt) :
    ((c.run dts).1.count .instrTick : Int) = ⌊(c.accCpu + dts.sum) * c.cpuHz⌋ ∧
    ((c.run dts).1.count .timerTick : Int) = ⌊(c.accTimer + dts.sum) * timerHz⌋ ∧
    (c.run dts).2 =
      ⟨c.cpuHz, leftover (c.accCpu + dts.sum) c.cpuHz, leftover (c.accTimer + dts.sum) timerHz⟩ := by
  induction dts generalizing c with
  | nil =>
    have hcpu := floor_eq_zero_of_lt_period hc.accCpu.left hc.cpuHz hc.accCpu.right
    have htimer := floor_eq_zero_of_lt_period hc.accTimer.left timerHz_pos hc.accTimer.right
    simp [hcpu, htimer, leftover_of_floor_eq_zero]
  | cons dt dts ih =>
    obtain ⟨hdt, hdts⟩ := List.forall_mem_cons.mp hdts
    obtain ⟨hinstr, htimer, hleft⟩ := ih (hc.iteration hdt) hdts
    have hcpu0 : 0 ≤ c.accCpu + dt := add_nonneg hc.accCpu.left hdt
    have htimer0 : 0 ≤ c.accTimer + dt := add_nonneg hc.accTimer.left hdt
    rw [Scheduler.run_cons, List.sum_cons, List.count_append, List.count_append, count_instrTick_iteration,
      count_timerTick_iteration, Nat.cast_add, Nat.cast_add, hinstr, htimer, hleft, ← add_assoc, ← add_assoc]
    exact ⟨ticksDue_after hcpu0 hc.cpuHz, ticksDue_after htimer0 timerHz_pos, by
      rw [← leftover_accAfter _ hcpu0 hc.cpuHz, ← leftover_accAfter _ htimer0 timerHz_pos]; rfl⟩

/-- Settles O59: the run from the start state, where both accumulators are 0. -/
theorem schedulerCountsTicksFromStart : Obligations.SchedulerCountsTicksFromStart := by
  intro cpuHz dts hhz hdts
  obtain ⟨hinstr, htimer, hleft⟩ := (Scheduler.drained_start hhz).run hdts
  simp only [Scheduler.start_accCpu, Scheduler.start_accTimer, zero_add] at hinstr htimer hleft
  exact ⟨hinstr, htimer, fun _ => tick_of_mem_run _ dts, hleft⟩

end Sys2Proof.Machine
end

section
/-! PROOFS. The program load of 70_reset_and_hazards.md: its two outcomes and its frame (R251, R252). -/

namespace Sys2Proof.Machine

section
variable (s : State) {bytes : List Byte}

theorem loadOperation_of_fits (h : bytes.length ≤ progMax) : loadOperation bytes s =
    { (s.storeBytes 0x200 bytes).setPc 0x200 with loadResults := s.loadResults ++ [.loaded] } := by
  rw [loadOperation, loadProgram, if_pos h, ← storeBytes_loadResults s 0x200 bytes]
  rfl

theorem loadOperation_of_tooLarge (h : progMax < bytes.length) : loadOperation bytes s =
    { s with loadResults := s.loadResults ++ [.rejected (.programTooLarge bytes.length)] } := by
  rw [loadOperation, loadProgram, if_neg (not_le.mpr h)]

/-- A load writes PC, memory and the results, nothing else. -/
theorem unchanged_memory_loadResults (pc : Word) (mem : List Host.Cell) (results : List LoadResult) :
    Unchanged [.memory, .loadResults] [] s { s with pc := pc, mem := mem, loadResults := results } := by
  refine ⟨fun p hp => ?_, fun _ _ => rfl⟩
  cases p with
  | memory | loadResults => exact absurd (by decide) hp
  | stack => exact ⟨rfl, rfl⟩
  | screen => exact fun _ _ => rfl
  | index | delayTimer | soundTimer | keypad | mode | config | draws | reports | schedule => rfl

theorem unchanged_storeBytes_setPc_loadResults (a n : Nat) (bs : List Byte) (results : List LoadResult) :
    Unchanged [.memory, .loadResults] [] s { (s.storeBytes a bs).setPc n with loadResults := results } := by
  rw [storeBytes_eq]
  exact unchanged_memory_loadResults s (pcValue n) _ results

end

/-- Settles O55: a program that fits is stored at 0x200 by `storeBytes`, and a longer one is rejected before any write. -/
theorem loadCopiesOrRejects : Obligations.LoadCopiesOrRejects := by
  intro bytes s
  refine ⟨fun hfits => ?loaded, fun hlong => congrArg Host.Outcome.next (loadOperation_of_tooLarge s hlong)⟩
  case loaded =>
    exact ⟨_, congrArg Host.Outcome.next (loadOperation_of_fits s hfits), rfl,
      fun _ hk => loadByte_storeBytes_add s hk, fun _ ha => loadByte_storeBytes_outside s ha, rfl,
      unchanged_storeBytes_setPc_loadResults s ..⟩

end Sys2Proof.Machine
end
